-- ==== Sys2Proof/Word.lean ====
section
/-! DEFINITION. The words of the block (spec/00_scope.md R13, R17, R18; spec/30_encoding.md R72): bytes,
16-bit words, HOSTOP words and frame words, all unsigned, and the widening of a byte. -/

namespace Sys2Proof

/-- `Byte`, an 8-bit unsigned value (R13, R17). -/
abbrev Byte := BitVec 8

/-- `Word16`, a 16-bit unsigned value: a parameter, a checksum, a sum (R17). -/
abbrev Word16 := BitVec 16

/-- A HOSTOP word: one Host operation as one binary word, 26 bits (R72). -/
abbrev HostopWord := BitVec 26

/-- A whole frame as one 80-bit number, offset 0 in bits 79:72 (R18). -/
abbrev FrameWord := BitVec 80

/-- `zext_16(b)`: the byte `b` as a 16-bit value (R13). -/
def zext16 (b : Byte) : Word16 := b.setWidth 16

end Sys2Proof
end

