-- ==== Sys2Proof/Config.lean ====
section
/-! DEFINITION. What is fixed for the whole run: the hardwired frame constants (spec/00_scope.md R9,
spec/10_state.md R27), the open parameters `CODE_TABLE`, `Variant` and `hasParam` (R10, R11, R28), and the
free values that stand for what the spec leaves unspecified (spec/93_implementation_defined.md U1, U2, U5). -/

namespace Sys2Proof

/-- One command variant (R11). The spec leaves the set open, so a variant is a bare name. -/
structure Variant where
  id : Nat
deriving DecidableEq, Repr, Inhabited

/-- A command-code table together with the variants it names (R10, R11) and the well-formedness condition
of 92_eei_decisions.md D7: the variants are a closed finite set, and each has exactly one code. -/
structure CommandTable where
  /-- The finite, closed set of command variants. -/
  variants : List Variant := []
  /-- Does the variant carry a 16-bit parameter? -/
  hasParam : Variant → Bool := fun _ => false
  /-- `CODE_TABLE`: the variant a code names, or none for an unknown code. -/
  lookup : Byte → Option Variant := fun _ => none
  /-- The table names only variants of the set. -/
  closed : ∀ c v, lookup c = some v → v ∈ variants := by simp
  /-- Every variant has exactly one code (D7). -/
  unique : ∀ v ∈ variants, ∃ c, lookup c = some v ∧ ∀ d, lookup d = some v → d = c := by simp
deriving Inhabited

namespace Config

/-! ### Fixed parameters (R9) -/

/-- `FRAME_LEN`: a frame is 10 bytes, and the Parser buffer holds exactly one. -/
def frameLen : Nat := 10

/-- `START`, the byte at frame offset 0. -/
def startMarker : Byte := 0x7E

/-- `VERSION`, the byte at frame offset 1. -/
def version : Byte := 0xFF

/-- `LENGTH`, the byte at frame offset 2. -/
def lengthByte : Byte := 0x06

/-- `END`, the byte at frame offset 9. -/
def endMarker : Byte := 0xEF

/-- `FEEDBACK_TX`, the byte the Encoder sends at frame offset 4 (R92). -/
def feedbackTx : Byte := 0x00

/-! ### Open parameters (D7, D28): nothing is known of the table but its well-formedness -/

/-- The configured command table. It is fixed before the first operation and no operation changes it (R28). -/
opaque commands : CommandTable

/-! ### Free values: draws of which nothing is assumed

The first argument is the draw counter `State.draws`, which every clock edge reads and advances, so that two
edges never share a draw. Assumption log 2, 3 and 4. -/

/-- What Parser buffer slot `k` holds after the candidate frame is discarded (R23, U2). -/
opaque freeBufSlot : (draw : Nat) → (k : Nat) → Byte

/-- What `obuf[i]` holds after `Err(BufferTooSmall)` (R90, R91, U1). -/
opaque freeObufByte : (draw : Nat) → (i : Nat) → Byte

/-- What a one-bit result output number `port` shows where R75 leaves it unspecified (U5). -/
opaque freeOutputBit : (draw : Nat) → (port : Nat) → Bool

/-- What a result output number `port` of `w` bits shows where R75 leaves it unspecified (U5). -/
opaque freeOutputBits : (draw : Nat) → (port : Nat) → (w : Nat) → BitVec w

end Config

end Sys2Proof
end

