-- ==== Sys2Proof/Syntax.lean ====
section
/-! DEFINITION. The operations of the block as syntax: the ten-byte frame (spec/30_encoding.md R60) and one
constructor of `Instr` per row of spec/opcode_table.json (R71, R72, R73). -/

namespace Sys2Proof

/-- A frame: exactly ten bytes, one field per offset 0 to 9 (R60). -/
structure Frame where
  /-- Offset 0, the start marker. -/
  start : Byte
  /-- Offset 1, the protocol version. -/
  version : Byte
  /-- Offset 2, the length byte. -/
  length : Byte
  /-- Offset 3, the command code. -/
  code : Byte
  /-- Offset 4, the feedback flag. -/
  feedback : Byte
  /-- Offset 5, parameter bits 15:8. -/
  paramHigh : Byte
  /-- Offset 6, parameter bits 7:0. -/
  paramLow : Byte
  /-- Offset 7, checksum bits 15:8. -/
  checksumHigh : Byte
  /-- Offset 8, checksum bits 7:0. -/
  checksumLow : Byte
  /-- Offset 9, the end marker. -/
  endMark : Byte
deriving DecidableEq, Repr

/-- The rows of spec/opcode_table.json. The fields a HOSTOP word carries without using them (R73) are kept as
operands, so that no bit of a word is dropped; no meaning reads them. -/
inductive Instr where
  /-- `IDLE`: no operation is issued (R73). -/
  | idle (ignored : BitVec 24)
  /-- `PROCESS_BYTE(b)`: one received byte enters the Parser (R100). -/
  | processByte (b : Byte) (ignored : BitVec 16)
  /-- `SERIALIZE(code, param)`: the Encoder writes one frame into the Host's buffer (R90). -/
  | serialize (code : Byte) (param : Word16)
  /-- `CLEAR`: the forced reset of the Parser (R114). -/
  | clear (ignored : BitVec 24)
  /-- `FRAME`: a whole frame on the wire, its ten bytes in offset order (R18, R44, R70). -/
  | frame (f : Frame)
deriving DecidableEq, Repr

/-- The bits an operation arrives in. -/
inductive CodeWord where
  /-- One 26-bit HOSTOP word (R72). -/
  | hostop (w : HostopWord)
  /-- One 80-bit frame word (R18). -/
  | frame (w : FrameWord)
  /-- Any other number of bits, or a number too large for its width: the block has no such word (R82). -/
  | other (nbits w : Nat)
deriving DecidableEq, Repr

/-- Why a word decodes to no instruction. -/
inductive DecodeError where
  /-- An 80-bit word whose offsets 0, 1, 2 and 9 do not have the structure of R69. -/
  | notAFrame (w : FrameWord)
  /-- Bits that are neither a HOSTOP word nor a frame word (R82). -/
  | noSuchWord (nbits w : Nat)
deriving DecidableEq, Repr

end Sys2Proof
end

