-- ==== Sys2Proof/WellFormed.lean ====
section
/-! DEFINITION. Well-formed instructions. The widths of the operands are carried by their types, and every HOSTOP
operand is legal (spec/30_encoding.md R73, R74), so the one check is that a frame has the structure of R69. -/

namespace Sys2Proof

/-- The structural pattern of R69: the four fixed bytes are at offsets 0, 1, 2 and 9. The checksum is no part of
it: a frame whose checksum disagrees is still a frame (95_test_vectors.md V-F4). -/
def Frame.structural (f : Frame) : Bool :=
  f.start == Config.startMarker && f.version == Config.version && f.length == Config.lengthByte
    && f.endMark == Config.endMarker

/-- An instruction some word of spec/opcode_table.json encodes. -/
def Instr.wellFormed : Instr → Bool
  | .idle _ => true
  | .processByte _ _ => true
  | .serialize _ _ => true
  | .clear _ => true
  | .frame f => f.structural

end Sys2Proof
end

