-- ==== Sys2Proof/Decode.lean ====
section
/-! DEFINITION. From words to instructions and back: the HOSTOP layout (spec/30_encoding.md R72, R73, R74), the
80-bit frame layout (spec/00_scope.md R18) and its structural pattern (R69). Decoding is total: every word is an
instruction or is rejected by name. -/

namespace Sys2Proof

/-! ### The HOSTOP word -/

/-- The `op` field, bits 1:0 (R72). -/
def HostopWord.op (w : HostopWord) : BitVec 2 := w.extractLsb' 0 2

/-- The `d8` field, bits 9:2 (R72). -/
def HostopWord.d8 (w : HostopWord) : Byte := w.extractLsb' 2 8

/-- The `p16` field, bits 25:10 (R72). -/
def HostopWord.p16 (w : HostopWord) : Word16 := w.extractLsb' 10 16

/-- Everything above `op`, bits 25:2: what IDLE and CLEAR ignore (R73). -/
def HostopWord.rest (w : HostopWord) : BitVec 24 := w.extractLsb' 2 24

/-- A HOSTOP word from its three fields (R72). -/
def HostopWord.ofFields (p16 : Word16) (d8 : Byte) (op : BitVec 2) : HostopWord :=
  BitVec.ofNat 26 (p16.toNat * 2 ^ 10 + d8.toNat * 2 ^ 2 + op.toNat)

/-- A HOSTOP word from `op` and the 24 bits above it. -/
def HostopWord.ofRest (rest : BitVec 24) (op : BitVec 2) : HostopWord :=
  BitVec.ofNat 26 (rest.toNat * 2 ^ 2 + op.toNat)

/-- `op` alone chooses the operation, and no word is reserved (R74): 00 IDLE, 01 PROCESS_BYTE, 10 SERIALIZE,
11 CLEAR. -/
def decodeHostop (w : HostopWord) : Instr :=
  if w.op = 0b00#2 then .idle w.rest
  else if w.op = 0b01#2 then .processByte w.d8 w.p16
  else if w.op = 0b10#2 then .serialize w.d8 w.p16
  else .clear w.rest

/-! ### The frame word -/

/-- The byte of a frame word at offset `k`, bits `[79-8k : 72-8k]` (R18). -/
def FrameWord.byteAt (w : FrameWord) (k : Nat) : Byte := w.extractLsb' (72 - 8 * k) 8

/-- The ten bytes of a frame word (R18). -/
def Frame.ofWord (w : FrameWord) : Frame where
  start := w.byteAt 0
  version := w.byteAt 1
  length := w.byteAt 2
  code := w.byteAt 3
  feedback := w.byteAt 4
  paramHigh := w.byteAt 5
  paramLow := w.byteAt 6
  checksumHigh := w.byteAt 7
  checksumLow := w.byteAt 8
  endMark := w.byteAt 9

/-- The ten bytes in wire order, offset 0 first (R44). -/
def Frame.bytes (f : Frame) : List Byte :=
  [f.start, f.version, f.length, f.code, f.feedback, f.paramHigh, f.paramLow, f.checksumHigh, f.checksumLow,
    f.endMark]

/-- A frame as one 80-bit word, offset 0 most significant (R18). -/
def Frame.toWord (f : Frame) : FrameWord :=
  BitVec.ofNat 80 (f.bytes.foldl (fun n b => n * 256 + b.toNat) 0)

/-- The mask of the FRAME row: offsets 0, 1, 2 and 9 (R69). -/
def frameMask : FrameWord := 0xFFFFFF000000000000FF

/-- The pattern of the FRAME row (R69). -/
def framePattern : FrameWord := 0x7EFF06000000000000EF

/-- A frame word with the structure of R69 is the FRAME row; any other 80-bit word is rejected by name. -/
def decodeFrame (w : FrameWord) : Except DecodeError Instr :=
  if w &&& frameMask = framePattern then .ok (.frame (Frame.ofWord w)) else .error (.notAFrame w)

/-! ### All words -/

/-- The decoder. -/
def decode : CodeWord → Except DecodeError Instr
  | .hostop w => .ok (decodeHostop w)
  | .frame w => decodeFrame w
  | .other nbits w => .error (.noSuchWord nbits w)

/-- The encoder, written from the same tables. -/
def encode : Instr → CodeWord
  | .idle ignored => .hostop (HostopWord.ofRest ignored 0b00#2)
  | .processByte b ignored => .hostop (HostopWord.ofFields ignored b 0b01#2)
  | .serialize code param => .hostop (HostopWord.ofFields param code 0b10#2)
  | .clear ignored => .hostop (HostopWord.ofRest ignored 0b11#2)
  | .frame f => .frame f.toWord

/-- The word a number of `nbits` bits stands for. A HOSTOP word is 26 bits and travels in up to four whole bytes,
whose bits above 25 are 0; a frame word is 80 bits (R82). -/
def CodeWord.ofBits (nbits w : Nat) : CodeWord :=
  if nbits ≤ 32 then (if w < 2 ^ 26 then .hostop (BitVec.ofNat 26 w) else .other nbits w)
  else if nbits ≤ 80 then (if w < 2 ^ 80 then .frame (BitVec.ofNat 80 w) else .other nbits w)
  else .other nbits w

/-- The instruction the decoder reads from a word numbered as spec/opcode_table.json numbers it. -/
def decodeTableWord (nbits w : Nat) : Option Instr :=
  match decode (CodeWord.ofBits nbits w) with
  | .ok i => some i
  | .error _ => none

end Sys2Proof
end

