-- ==== Sys2Proof/Machine/State.lean ====
section
/-! DEFINITION. The state of the block (spec/10_state.md R21, R23; spec/20_memory.md R40; spec/30_encoding.md R76),
the results of its operations (spec/00_scope.md R17), and the machine right after reset (R31, R150). -/

namespace Sys2Proof.Machine

/-! ### Results (R17) -/

/-- `Message`: what a valid frame decodes to. -/
inductive Message where
  /-- A known command, with the parameter as received. -/
  | known (v : Variant) (param : Word16)
  /-- A command code the table does not know. It carries the code only (D11). -/
  | unknownCommand (code : Byte)
deriving DecidableEq, Repr

/-- `ParseErrorKind`. -/
inductive ParseErrorKind where
  | checksumMismatch
  | framingError
deriving DecidableEq, Repr

/-- `ParseResult`: what one PROCESS_BYTE returns. -/
inductive ParseResult where
  | incomplete
  | complete (m : Message)
  | error (kind : ParseErrorKind)
deriving DecidableEq, Repr

/-- The one error of the Encoder (R91). -/
inductive EncodeError where
  | bufferTooSmall
deriving DecidableEq, Repr

/-- `SerResult`: what one SERIALIZE returns. -/
inductive SerResult where
  | ok (bytesWritten : Nat)
  | err (kind : EncodeError)
deriving DecidableEq, Repr

/-- A value returned to the Host by one operation of either unit. -/
inductive OpResult where
  | parse (r : ParseResult)
  | serialize (r : SerResult)
deriving DecidableEq, Repr

/-! ### The Parser (R21, R23) -/

/-- `Pos`, the integers 0 to 9 (R17, R21). -/
abbrev Pos := Fin 10

/-- The names of the ten states of the Parser, in order of traversal (R22). -/
inductive AwaitState where
  | awaitStart
  | awaitVersion
  | awaitLength
  | awaitCommand
  | awaitFeedback
  | awaitParamHigh
  | awaitParamLow
  | awaitChecksumHigh
  | awaitChecksumLow
  | awaitEnd
deriving DecidableEq, Repr

/-- The Parser: its position register and its ten-byte buffer. -/
structure Parser where
  /-- `pos`: the number of bytes of the candidate frame already buffered (R21). -/
  pos : Pos
  /-- `buf`: slot `k < pos` holds the candidate's byte at offset `k`; the other slots hold nothing defined (R23). -/
  buf : Vector Byte 10
deriving DecidableEq, Repr

/-! ### Ports (R76). One-bit ports are `Bool`, `true` for 1. -/

/-- The inputs of the block at one rising edge of `clk`. -/
structure Pins where
  rst : Bool
  inValid : Bool
  inByte : Byte
  clear : Bool
  encReq : Bool
  encCode : Byte
  encParam : Word16
  encCap : Word16
deriving DecidableEq, Repr

/-- The output registers of the Parser, held from one edge to the next (R77). -/
structure ParserOutputs where
  resValid : Bool
  resKind : BitVec 2
  resErr : Bool
  msgKnown : Bool
  msgCode : Byte
  msgParam : Word16
deriving DecidableEq, Repr

/-- The output registers of the Encoder, held from one edge to the next (R80). -/
structure EncoderOutputs where
  encDone : Bool
  encStatus : Bool
  encLen : BitVec 4
  encFrame : FrameWord
deriving DecidableEq, Repr

/-! ### The Host -/

/-- `obuf`, the Host's output buffer (R40): the bytes written so far by index, strictly rising. An index that is
not listed holds the Host's own byte, of which the model says nothing (assumption log 6). -/
abbrev Memory := List Host.Cell

/-- What the Host does next (R8). -/
inductive Event where
  /-- It issues one operation of spec/opcode_table.json (R71, R72). `cap` travels beside the word: the capacity of
  the output buffer it gives (R12), or none where it gives no new buffer. -/
  | op (word : CodeWord) (cap : Option Nat)
  /-- It drives the ports for one rising edge of `clk` (R76); reset is such an edge (R150). -/
  | edge (pins : Pins)
  /-- It copies `enc_frame` into `obuf` while `enc_done` is 1 (R76, R157), which completes the effect of R90. -/
  | copyFrame
  /-- It reads the result outputs (R155). -/
  | sample
deriving DecidableEq, Repr

/-! ### The state -/

/-- Everything the block and its Host hold between two steps. -/
structure State where
  /-- The Parser's `pos` and `buf`, the block's only architectural state (R20). -/
  parser : Parser
  /-- The Parser's output registers (R76). -/
  parserOut : ParserOutputs
  /-- The Encoder's output registers (R76). -/
  encoderOut : EncoderOutputs
  /-- The Host's output buffer (R40). -/
  obuf : Memory
  /-- `cap`, the capacity in bytes of the buffer the Host gave last (R12), with an operation (assumption log 7) or on
  `enc_cap` at an edge that takes `enc_req` (R76, assumption log 24). -/
  cap : Nat
  /-- What the Host is about to do, oldest first: the one stream of R51. -/
  pending : List Event
  /-- What the latest step returned to the Host, in order. It belongs to the Host: no operation reads it (R29). -/
  results : List OpResult
  /-- The draw counter of the free values, the model's own field (assumption log 5). -/
  draws : Nat
deriving DecidableEq, Repr

/-- Why a step stops with a fault. The block has no fault of its own (R130). -/
inductive Fault where
  /-- Raised by the Host's reading of the outputs (`Event.sample`) when `res_valid` is 1 and `res_kind` is 11,
  which is never produced and which "a consumer that sees it must record" as a fault (U6). Safe: the block never
  shows it, so only states no run reaches raise it. -/
  | reservedResultKind
deriving DecidableEq, Repr

/-- Why a step is refused. -/
inductive Refusal where
  /-- An instruction that has no meaning yet. No arm answers it now. Safe. -/
  | notModelled (mnemonic : String)
  /-- Raised by a step whose next event is an operation with a word no row of the opcode table matches. Safe: an
  80-bit number without the structure of R69 is no FRAME (its bytes can still be offered one by one with
  PROCESS_BYTE), and bits of another size are no word of the block (R82). -/
  | undecodable (e : DecodeError)
deriving DecidableEq, Repr

/-- The machine right after reset (R31, R150): `pos` = 0, `res_valid` = 0 and `enc_done` = 0 as the spec says.
The buffer slots and the other outputs are unspecified there and are 0 here (assumption log 1, DESIGN CHOICE), the
Host has written nothing and issued nothing, and its buffer has the smallest capacity that serves (log 7). -/
def State.reset : State where
  parser := { pos := 0, buf := #v[0, 0, 0, 0, 0, 0, 0, 0, 0, 0] }
  parserOut :=
    { resValid := false, resKind := 0, resErr := false, msgKnown := false, msgCode := 0, msgParam := 0 }
  encoderOut := { encDone := false, encStatus := false, encLen := 0, encFrame := 0 }
  obuf := []
  cap := Config.frameLen
  pending := []
  results := []
  draws := 0

end Sys2Proof.Machine
end

