-- ==== Sys2Proof/Machine/Ops.lean ====
section
/-! DEFINITION. The operations every meaning is made of: bytes of `obuf` (spec/20_memory.md R40, R41), the Parser's
slots and its return to AwaitStart (spec/60_exceptions.md R135), and the named updates of the state. The block has no
exception to take and none to return from (R130, R131, R136): `Parser.discarded` is all that an error changes. -/

namespace Sys2Proof.Machine

/-! ### `obuf` (R40, R41) -/

/-- The canonical form: indices strictly rising. Every listed index differs from an unlisted one, which has no
value (assumption log 6). -/
abbrev Memory.wf (m : Memory) : Prop := (m.map Prod.fst).Pairwise (· < ·)

/-- The byte at index `i`, or none where nothing has been written. -/
def Memory.read : Memory → Nat → Option Byte
  | [], _ => none
  | (a, x) :: m, i => if a = i then some x else Memory.read m i

/-- `MemWrite(i, 1, v)` (R15). -/
def Memory.write : Memory → Nat → Byte → Memory
  | [], i, v => [(i, v)]
  | (a, x) :: m, i, v =>
    if i < a then (i, v) :: (a, x) :: m
    else if i = a then (i, v) :: m
    else (a, x) :: Memory.write m i v

/-- The bytes of a list at rising indices from `i`, written one by one (R45, R46). -/
def Memory.writeBytes : Memory → Nat → List Byte → Memory
  | m, _, [] => m
  | m, i, v :: vs => Memory.writeBytes (m.write i v) (i + 1) vs

/-- `havoc(obuf[i])` for `i` in `0 .. cap-1`, each byte a draw of its own (R90, U1). -/
def Memory.havoc (draw : Nat) : Nat → Memory → Memory
  | 0, m => m
  | i + 1, m => (Memory.havoc draw i m).write i (Config.freeObufByte draw i)

/-! ### The Parser -/

/-- The name of the state a position stands for (R22). -/
def AwaitState.ofPos : Pos → AwaitState
  | ⟨0, _⟩ => .awaitStart
  | ⟨1, _⟩ => .awaitVersion
  | ⟨2, _⟩ => .awaitLength
  | ⟨3, _⟩ => .awaitCommand
  | ⟨4, _⟩ => .awaitFeedback
  | ⟨5, _⟩ => .awaitParamHigh
  | ⟨6, _⟩ => .awaitParamLow
  | ⟨7, _⟩ => .awaitChecksumHigh
  | ⟨8, _⟩ => .awaitChecksumLow
  | ⟨9, _⟩ => .awaitEnd
  | ⟨n + 10, h⟩ => absurd h (by omega)

/-- The position a 4-bit register stands for (R32): 10 to 15 behave as AwaitStart on the next byte (D13). -/
def posOfRegister (r : BitVec 4) : Pos :=
  if h : r.toNat < 10 then ⟨r.toNat, h⟩ else 0

/-- The 4-bit register that holds a position (R32). -/
def registerOfPos (p : Pos) : BitVec 4 := BitVec.ofNat 4 p.val

/-- `buf[slot] <- b; pos <- next`. -/
def Parser.store (slot next : Pos) (b : Byte) (p : Parser) : Parser :=
  { pos := next, buf := p.buf.set slot b }

/-- The Parser back in AwaitStart with its candidate frame discarded: `pos <- 0`, and every slot holds no defined
value (R23, R114, R135), so each slot is a draw. -/
def Parser.discarded (draw : Nat) : Parser where
  pos := 0
  buf := #v[Config.freeBufSlot draw 0, Config.freeBufSlot draw 1, Config.freeBufSlot draw 2,
    Config.freeBufSlot draw 3, Config.freeBufSlot draw 4, Config.freeBufSlot draw 5, Config.freeBufSlot draw 6,
    Config.freeBufSlot draw 7, Config.freeBufSlot draw 8, Config.freeBufSlot draw 9]

/-! ### Updates of the state -/

/-- Hand results to the Host. -/
def State.setResults (rs : List OpResult) (s : State) : State := { s with results := rs }

/-- Replace the Host's output buffer. -/
def State.setObuf (m : Memory) (s : State) : State := { s with obuf := m }

/-- The Host gives a buffer of another capacity, or none (R12). -/
def State.setCap (cap : Option Nat) (s : State) : State := { s with cap := cap.getD s.cap }

/-- Move the draw counter on, so that no later step uses the draws of this one. -/
def State.nextDraw (s : State) : State := { s with draws := s.draws + 1 }

/-- The Host's remaining events. -/
def State.setPending (es : List Event) (s : State) : State := { s with pending := es }

/-- What one rising edge leaves in the registers of the two units. The draw counter moves on, so that no later edge
uses the draws of this one. -/
def State.clock (p : Parser) (po : ParserOutputs) (eo : EncoderOutputs) (s : State) : State :=
  { s with parser := p, parserOut := po, encoderOut := eo, draws := s.draws + 1 }

end Sys2Proof.Machine
end

