-- ==== Sys2Proof/Machine/Checksum.lean ====
section
/-! DEFINITION. The checksum both units share (spec/40_codec.md R85; spec/00_scope.md R14) and the running sum of the
Parser (spec/10_state.md R25). -/

namespace Sys2Proof.Machine

/-- `neg16(v) = (65536 - v) mod 65536` (R14). -/
def neg16 (v : Word16) : Word16 := BitVec.ofNat 16 (65536 - v.toNat)

/-- `sum16` of bytes, modulo 65536; of no bytes it is 0 (R14). -/
def sum16 : List Byte → Word16
  | [] => 0
  | b :: bs => zext16 b + sum16 bs

/-- `checksum(b1, …, b6) = neg16(sum16(b1, …, b6))`, the bytes at offsets 1 to 6 in order (R85). -/
def checksum (b1 b2 b3 b4 b5 b6 : Byte) : Word16 := neg16 (sum16 [b1, b2, b3, b4, b5, b6])

/-- The checksum operands buffered so far: slots 1 up to `min(pos, 7) - 1` (R25). -/
def Parser.summed (p : Parser) : List Byte := (p.buf.toList.take (min p.pos.val 7)).drop 1

/-- `acc`, the running checksum: not state of its own but this function of `pos` and `buf` (R25, D24). -/
def Parser.acc (p : Parser) : Word16 := sum16 p.summed

end Sys2Proof.Machine
end

