-- ==== Sys2Proof/Machine/Operands.lean ====
section
/-! DEFINITION. Operands: the two bytes of a 16-bit field (spec/20_memory.md R42; spec/30_encoding.md R66, R67), the
frame of a command (spec/40_codec.md R89), the valid frame (R70), and the mapping between commands and codes (R88,
spec/41_parser.md R112). -/

namespace Sys2Proof.Machine

/-- `hi ++ lo`, that is `hi * 256 + lo` (R13, R66): big-endian, the byte at the lower offset is the high one (R42). -/
def wordOfBytes (hi lo : Byte) : Word16 := BitVec.ofNat 16 (hi.toNat * 256 + lo.toNat)

/-- `v[15:8]`. -/
def highByte (v : Word16) : Byte := v.extractLsb' 8 8

/-- `v[7:0]`. -/
def lowByte (v : Word16) : Byte := v.extractLsb' 0 8

/-- `frame(code, param)`, the frame SERIALIZE produces (R89), with the feedback byte always `FEEDBACK_TX` (R92). -/
def buildFrame (code : Byte) (param : Word16) : Frame :=
  let ph := highByte param
  let pl := lowByte param
  let cs := checksum Config.version Config.lengthByte code Config.feedbackTx ph pl
  { start := Config.startMarker
    version := Config.version
    length := Config.lengthByte
    code := code
    feedback := Config.feedbackTx
    paramHigh := ph
    paramLow := pl
    checksumHigh := highByte cs
    checksumLow := lowByte cs
    endMark := Config.endMarker }

/-- The sum of the bytes at offsets 1 to 6 of a frame. -/
def frameSum (f : Frame) : Word16 :=
  sum16 [f.version, f.length, f.code, f.feedback, f.paramHigh, f.paramLow]

/-- The received checksum `C` of a frame (R67). -/
def frameChecksum (f : Frame) : Word16 := wordOfBytes f.checksumHigh f.checksumLow

/-- The parameter of a frame (R66). -/
def frameParam (f : Frame) : Word16 := wordOfBytes f.paramHigh f.paramLow

/-- A valid frame: the structure of R69 and a checksum that agrees (R70). -/
def frameValid (f : Frame) : Bool := f.structural && frameChecksum f == neg16 (frameSum f)

/-- The frame made of the buffered bytes 0 to 8 and a last byte `b` (R116). -/
def Parser.candidate (p : Parser) (b : Byte) : Frame where
  start := p.buf[0]
  version := p.buf[1]
  length := p.buf[2]
  code := p.buf[3]
  feedback := p.buf[4]
  paramHigh := p.buf[5]
  paramLow := p.buf[6]
  checksumHigh := p.buf[7]
  checksumLow := p.buf[8]
  endMark := b

/-- `decode(c, p)` (R112): a known code gives its variant with the parameter, an unknown one gives the code. -/
def decodeMessage (t : CommandTable) (c : Byte) (p : Word16) : Message :=
  match t.lookup c with
  | some v => .known v p
  | none => .unknownCommand c

/-- `code(v)`: the code the table has for a variant, if it has one (R10, R88). -/
def codeOf (t : CommandTable) (v : Variant) : Option Byte :=
  ((List.range 256).map (BitVec.ofNat 8)).find? fun c => t.lookup c == some v

/-- `ENC(v, p)`: the operands of SERIALIZE for a command (R88). The Host applies it; a variant without a parameter is
sent with parameter 0. -/
def encOperands (t : CommandTable) (v : Variant) (p : Word16) : Option (Byte × Word16) :=
  (codeOf t v).map fun c => (c, if t.hasParam v then p else 0)

/-- The capacity the `enc_cap` port shows: 16 bits, and a Host with 65535 or more bytes presents 0xFFFF (R76). -/
def portCap (cap : Nat) : Word16 := BitVec.ofNat 16 (min cap 0xFFFF)

end Sys2Proof.Machine
end

