-- ==== Sys2Proof/Machine/Flags.lean ====
section
/-! DEFINITION. The block has no flags (spec/10_state.md R29). What stands in their place is the numeric encoding of
results on the output ports (spec/30_encoding.md R75) and the Host's reading of it (spec/70_reset_and_hazards.md R155). -/

namespace Sys2Proof.Machine

/-- The Parser's outputs in a cycle without a result: `res_valid` = 0 and every other one unspecified (U5). -/
def ParserOutputs.quiet (draw : Nat) : ParserOutputs where
  resValid := false
  resKind := Config.freeOutputBits draw 0 2
  resErr := Config.freeOutputBit draw 1
  msgKnown := Config.freeOutputBit draw 2
  msgCode := Config.freeOutputBits draw 3 8
  msgParam := Config.freeOutputBits draw 4 16

/-- The Parser's outputs for a result (R75). `code` and `param` are those received, bytes 3, 5 and 6 of the
candidate frame. What the table leaves unspecified stays as in `quiet`. -/
def ParserOutputs.ofResult (draw : Nat) (code : Byte) (param : Word16) : ParseResult → ParserOutputs
  | .incomplete => { ParserOutputs.quiet draw with resValid := true, resKind := 0b00 }
  | .complete (.known _ p) =>
    { ParserOutputs.quiet draw with
      resValid := true, resKind := 0b01, msgKnown := true, msgCode := code, msgParam := p }
  | .complete (.unknownCommand c) =>
    { ParserOutputs.quiet draw with
      resValid := true, resKind := 0b01, msgKnown := false, msgCode := c, msgParam := param }
  | .error .framingError => { ParserOutputs.quiet draw with resValid := true, resKind := 0b10, resErr := false }
  | .error .checksumMismatch => { ParserOutputs.quiet draw with resValid := true, resKind := 0b10, resErr := true }

/-- The Encoder's outputs in a cycle without a result: `enc_done` = 0 and every other one unspecified (U5). -/
def EncoderOutputs.quiet (draw : Nat) : EncoderOutputs where
  encDone := false
  encStatus := Config.freeOutputBit draw 5
  encLen := Config.freeOutputBits draw 6 4
  encFrame := Config.freeOutputBits draw 7 80

/-- The Encoder's outputs for a result and the frame it made (R75). -/
def EncoderOutputs.ofResult (draw : Nat) (f : Frame) : SerResult → EncoderOutputs
  | .ok n =>
    { EncoderOutputs.quiet draw with
      encDone := true, encStatus := false, encLen := BitVec.ofNat 4 n, encFrame := f.toWord }
  | .err .bufferTooSmall =>
    { EncoderOutputs.quiet draw with encDone := true, encStatus := true, encLen := 0 }

/-- What a Host reads from the Parser's outputs (R75): nothing while `res_valid` is 0. `res_kind` = 11 is never
produced, and a consumer that sees it records a fault (U6). -/
def ParserOutputs.read (t : CommandTable) (o : ParserOutputs) : Except Fault (List OpResult) :=
  if o.resValid then
    if o.resKind = 0b00 then .ok [.parse .incomplete]
    else if o.resKind = 0b01 then
      if o.msgKnown then .ok [.parse (.complete (decodeMessage t o.msgCode o.msgParam))]
      else .ok [.parse (.complete (.unknownCommand o.msgCode))]
    else if o.resKind = 0b10 then
      if o.resErr then .ok [.parse (.error .checksumMismatch)] else .ok [.parse (.error .framingError)]
    else .error .reservedResultKind
  else .ok []

/-- What a Host reads from the Encoder's outputs (R75): nothing while `enc_done` is 0. -/
def EncoderOutputs.read (o : EncoderOutputs) : List OpResult :=
  if o.encDone then
    if o.encStatus then [.serialize (.err .bufferTooSmall)] else [.serialize (.ok o.encLen.toNat)]
  else []

end Sys2Proof.Machine
end

