-- ==== Sys2Proof/Machine/EncoderUnit.lean ====
section
/-! DEFINITION. The Encoder (spec/40_codec.md R90, R91): stateless (R26), so each definition is a function of its
operands. -/

namespace Sys2Proof.Machine

/-- What SERIALIZE returns: `BufferTooSmall` exactly when `cap < 10`, else the 10 bytes written (R90, R91). -/
def serResult (cap : Nat) : SerResult :=
  if cap < Config.frameLen then .err .bufferTooSmall else .ok Config.frameLen

/-- `SERIALIZE(code, param, obuf, cap)` on the buffer (R90): the frame at indices 0 to 9, or every byte of a buffer
that is too small unspecified. -/
def serializeInto (draw : Nat) (code : Byte) (param : Word16) (cap : Nat) (obuf : Memory) : Memory :=
  if cap < Config.frameLen then obuf.havoc draw cap else obuf.writeBytes 0 (buildFrame code param).bytes

end Sys2Proof.Machine
end

