-- ==== Sys2Proof/Machine/ParserUnit.lean ====
section
/-! DEFINITION. The Parser (spec/41_parser.md): one definition per value of `pos`, the PROCESS_BYTE that chooses among
them (R100), and CLEAR (R114). The command table is an argument (R10). -/

namespace Sys2Proof.Machine

/-- R101: a byte other than 0x7E is discarded silently. -/
def awaitStart (b : Byte) (p : Parser) : Parser × ParseResult :=
  if b = Config.startMarker then (p.store 0 1 b, .incomplete) else (p, .incomplete)

/-- R102: a byte other than 0xFF is a framing error, and is not examined again (R111). -/
def awaitVersion (draw : Nat) (b : Byte) (p : Parser) : Parser × ParseResult :=
  if b = Config.version then (p.store 1 2 b, .incomplete)
  else (Parser.discarded draw, .error .framingError)

/-- R103: a byte other than 0x06 is a framing error, and is not examined again (R111). -/
def awaitLength (draw : Nat) (b : Byte) (p : Parser) : Parser × ParseResult :=
  if b = Config.lengthByte then (p.store 2 3 b, .incomplete)
  else (Parser.discarded draw, .error .framingError)

/-- R104. -/
def awaitCommand (b : Byte) (p : Parser) : Parser × ParseResult := (p.store 3 4 b, .incomplete)

/-- R105: every feedback value is accepted (D6). -/
def awaitFeedback (b : Byte) (p : Parser) : Parser × ParseResult := (p.store 4 5 b, .incomplete)

/-- R106. -/
def awaitParamHigh (b : Byte) (p : Parser) : Parser × ParseResult := (p.store 5 6 b, .incomplete)

/-- R107. -/
def awaitParamLow (b : Byte) (p : Parser) : Parser × ParseResult := (p.store 6 7 b, .incomplete)

/-- R108. -/
def awaitChecksumHigh (b : Byte) (p : Parser) : Parser × ParseResult := (p.store 7 8 b, .incomplete)

/-- R109: nothing is compared yet (D5). -/
def awaitChecksumLow (b : Byte) (p : Parser) : Parser × ParseResult := (p.store 8 9 b, .incomplete)

/-- R110: the checksum is compared first, then the end marker (R134). The end byte is not stored. -/
def awaitEnd (t : CommandTable) (draw : Nat) (b : Byte) (p : Parser) : Parser × ParseResult :=
  let s := sum16 [p.buf[1], p.buf[2], p.buf[3], p.buf[4], p.buf[5], p.buf[6]]
  let c := wordOfBytes p.buf[7] p.buf[8]
  if c ≠ neg16 s then (Parser.discarded draw, .error .checksumMismatch)
  else if b ≠ Config.endMarker then (Parser.discarded draw, .error .framingError)
  else (Parser.discarded draw, .complete (decodeMessage t p.buf[3] (wordOfBytes p.buf[5] p.buf[6])))

/-- `PROCESS_BYTE(b)` on the Parser (R100): the arm of the state `pos` names. -/
def Parser.processByte (t : CommandTable) (draw : Nat) (b : Byte) (p : Parser) : Parser × ParseResult :=
  match AwaitState.ofPos p.pos with
  | .awaitStart => awaitStart b p
  | .awaitVersion => awaitVersion draw b p
  | .awaitLength => awaitLength draw b p
  | .awaitCommand => awaitCommand b p
  | .awaitFeedback => awaitFeedback b p
  | .awaitParamHigh => awaitParamHigh b p
  | .awaitParamLow => awaitParamLow b p
  | .awaitChecksumHigh => awaitChecksumHigh b p
  | .awaitChecksumLow => awaitChecksumLow b p
  | .awaitEnd => awaitEnd t draw b p

/-- `CLEAR()` on the Parser (R114): `pos <- 0`, and the slots become unspecified. -/
def Parser.clear (draw : Nat) : Parser := Parser.discarded draw

end Sys2Proof.Machine
end

