-- ==== Sys2Proof/Machine/Signal.lean ====
section
/-! DEFINITION. The signal-level form (spec/30_encoding.md R76 to R80; spec/70_reset_and_hazards.md R150): what one
rising edge of `clk` does to each unit, and the two things the Host does between edges (R76, R155). -/

namespace Sys2Proof.Machine

/-! ### The inputs of one edge -/

/-- No input asserted. -/
def Pins.idle : Pins where
  rst := false
  inValid := false
  inByte := 0
  clear := false
  encReq := false
  encCode := 0
  encParam := 0
  encCap := 0

/-- A byte offered to the Parser. -/
def Pins.offer (b : Byte) : Pins := { Pins.idle with inValid := true, inByte := b }

/-- A SERIALIZE asked of the Encoder. -/
def Pins.request (code : Byte) (param : Word16) (cap : Nat) : Pins :=
  { Pins.idle with encReq := true, encCode := code, encParam := param, encCap := portCap cap }

/-- `clear` asserted. -/
def Pins.clearing : Pins := { Pins.idle with clear := true }

/-- `rst` asserted. -/
def Pins.reset : Pins := { Pins.idle with rst := true }

/-! ### One edge -/

/-- The Parser at one edge: `rst` before `clear`, and `clear` before `in_valid` (R79). -/
def parserEdge (t : CommandTable) (draw : Nat) (pins : Pins) (p : Parser) : Parser × ParserOutputs :=
  if pins.rst then (Parser.discarded draw, ParserOutputs.quiet draw)
  else if pins.clear then (Parser.clear draw, ParserOutputs.quiet draw)
  else if pins.inValid then
    let (p', r) := p.processByte t draw pins.inByte
    (p', ParserOutputs.ofResult draw p.buf[3] (wordOfBytes p.buf[5] p.buf[6]) r)
  else (p, ParserOutputs.quiet draw)

/-- The Encoder at one edge (R80): `enc_req` is taken unless `rst` is 1. -/
def encoderEdge (draw : Nat) (pins : Pins) : EncoderOutputs :=
  if pins.rst then EncoderOutputs.quiet draw
  else if pins.encReq then
    EncoderOutputs.ofResult draw (buildFrame pins.encCode pins.encParam) (serResult pins.encCap.toNat)
  else EncoderOutputs.quiet draw

/-- One rising edge: both units act, and neither sees the other (R79). -/
def State.edge (pins : Pins) (s : State) : State :=
  s.clock (parserEdge Config.commands s.draws pins s.parser).1
    (parserEdge Config.commands s.draws pins s.parser).2 (encoderEdge s.draws pins)

/-! ### The Host at and between edges -/

/-- The capacity of the Host's buffer after an edge. An edge that takes `enc_req` gives a buffer of the `enc_cap` bytes
it presents (R76), and later operations that give none use it. `enc_cap` does not tell capacities of 65535 and more
apart, so a capacity that the port shows as it already stands is kept. Any other edge gives no buffer. That the
capacity lasts beyond the edge is the model's choice (DESIGN CHOICE, assumption log 24). -/
def requestedCap (pins : Pins) (cap : Nat) : Nat :=
  if pins.encReq && !pins.rst && pins.encCap != portCap cap then pins.encCap.toNat else cap

/-- An edge the Host drives by itself. Its results are on the outputs only, and it touches no byte of `obuf`: the block
has no port on it (R76). -/
def runEdge (pins : Pins) (s : State) : Host.Outcome State Fault Refusal :=
  .next (((s.edge pins).setCap (some (requestedCap pins s.cap))).setResults [])

/-- The Host copies `enc_frame` into `obuf` after a SERIALIZE (R76, R157), with the effect R90 states: the frame byte
per offset (R41), or, after `Err(BufferTooSmall)`, every byte of the too small buffer unspecified (R91, R158, U1).
Where `enc_done` is 0 there is nothing to copy (assumption log 9). -/
def runCopyFrame (s : State) : Host.Outcome State Fault Refusal :=
  let o := s.encoderOut
  .next ((if o.encDone then
      if o.encStatus then (s.setObuf (s.obuf.havoc s.draws s.cap)).nextDraw
      else s.setObuf (s.obuf.writeBytes 0 (Frame.ofWord o.encFrame).bytes)
    else s).setResults [])

/-- The Host reads the result outputs of both units (R155). Where both show a result the Parser's comes first in
`results`: the spec gives the two results of one edge no order (R50), so that is the model's choice (DESIGN CHOICE,
assumption log 25). -/
def runSample (s : State) : Host.Outcome State Fault Refusal :=
  match s.parserOut.read Config.commands with
  | .ok rs => .next (s.setResults (rs ++ s.encoderOut.read))
  | .error f => .fault f

end Sys2Proof.Machine
end

