-- ==== Sys2Proof/Machine/HostOps.lean ====
section
/-! DEFINITION. The meanings of the rows of spec/opcode_table.json. Each Host operation is one atomic step of its agent
(spec/20_memory.md R47) and takes one rising edge (spec/70_reset_and_hazards.md R163); its result goes to the Host. -/

namespace Sys2Proof.Machine

/-- One byte enters the Parser, by one edge (R77): the state after it and the result of R100. -/
def offer (b : Byte) (s : State) : State × ParseResult :=
  (s.edge (Pins.offer b), (s.parser.processByte Config.commands s.draws b).2)

/-- Bytes enter the Parser one after another, each at an edge of its own (R84 `PBS`, R161). -/
def offerAll : List Byte → State → State × List ParseResult
  | [], s => (s, [])
  | b :: bs, s =>
    let (s1, r) := offer b s
    let (s2, rs) := offerAll bs s1
    (s2, r :: rs)

/-- IDLE (R73): it issues no operation and returns no result; the edge that passes only ends the cycle in which the
outputs of the one before it held (R77, R80). -/
def execIdle (s : State) : Host.Outcome State Fault Refusal :=
  .next ((s.edge Pins.idle).setResults [])

/-- PROCESS_BYTE (R100). -/
def execProcessByte (b : Byte) (s : State) : Host.Outcome State Fault Refusal :=
  .next ((offer b s).1.setResults [.parse (offer b s).2])

/-- SERIALIZE (R90): the Encoder's edge and the Host's copy into `obuf` together (R76). -/
def execSerialize (code : Byte) (param : Word16) (s : State) : Host.Outcome State Fault Refusal :=
  .next (((s.edge (Pins.request code param s.cap)).setObuf (serializeInto s.draws code param s.cap s.obuf)).setResults
    [.serialize (serResult s.cap)])

/-- CLEAR (R114): the forced reset of the Parser, without a result. -/
def execClear (s : State) : Host.Outcome State Fault Refusal :=
  .next ((s.edge Pins.clearing).setResults [])

/-- FRAME: the ten bytes of a frame arrive in offset order (R18, R44), which is `PBS` of them (R84), and their ten
results go to the Host. Assumption log 8. -/
def execFrame (f : Frame) (s : State) : Host.Outcome State Fault Refusal :=
  .next ((offerAll f.bytes s).1.setResults ((offerAll f.bytes s).2.map .parse))

end Sys2Proof.Machine
end

