-- ==== Sys2Proof/Machine/Dispatch.lean ====
section
/-! DEFINITION. One arm per row of spec/opcode_table.json, each a direct call of its meaning. -/

namespace Sys2Proof.Machine

/-- The meaning of one instruction. The ignored fields of R73 reach no meaning. -/
def exec (i : Instr) (s : State) : Host.Outcome State Fault Refusal :=
  match i with
  | .idle _ => Sys2Proof.Machine.execIdle s
  | .processByte b _ => Sys2Proof.Machine.execProcessByte b s
  | .serialize code param => Sys2Proof.Machine.execSerialize code param s
  | .clear _ => Sys2Proof.Machine.execClear s
  | .frame f => Sys2Proof.Machine.execFrame f s

end Sys2Proof.Machine
end

