-- ==== Sys2Proof/Machine/Step.lean ====
section
/-! DEFINITION. One step: the Host's next event happens. Operations are issued one at a time, in one order
(spec/00_scope.md R8; spec/20_memory.md R50, R51). -/

namespace Sys2Proof.Machine

/-- A step. With no event pending nothing happens: between operations the block is idle and keeps its state (R144). -/
def step (s : State) : Host.Outcome State Fault Refusal :=
  match s.pending with
  | [] => .next s
  | .op word cap :: rest =>
    match decode word with
    | .ok i => exec i ((s.setPending rest).setCap cap)
    | .error e => .refused (.undecodable e)
  | .edge pins :: rest => runEdge pins (s.setPending rest)
  | .copyFrame :: rest => runCopyFrame (s.setPending rest)
  | .sample :: rest => runSample (s.setPending rest)

/-- `s` with one operation placed before everything the Host is about to do, in the buffer it has given already. -/
def State.withFetchWord (s : State) (nbits w : Nat) : State :=
  s.setPending (.op (CodeWord.ofBits nbits w) none :: s.pending)

end Sys2Proof.Machine
end

