-- ==== Sys2Proof/Machine/Assembler.lean ====
section
/-! DEFINITION. The notation of test programs as events of the Host (spec/30_encoding.md R83, R84). -/

namespace Sys2Proof.Machine

/-- `PB <b>`. -/
def asmPB (b : Byte) : Event := .op (encode (.processByte b 0)) none

/-- `SER <code>, <param>, cap=<n>`. -/
def asmSER (code : Byte) (param : Word16) (cap : Nat) : Event := .op (encode (.serialize code param)) (some cap)

/-- `CLR`. -/
def asmCLR : Event := .op (encode (.clear 0)) none

/-- `RST`: `rst` for one edge, no HOSTOP. -/
def asmRST : Event := .edge Pins.reset

/-- `NOP`. -/
def asmNOP : Event := .op (encode (.idle 0)) none

/-- `PBS <b0>, …, <bn>` (R84). -/
def asmPBS (bs : List Byte) : List Event := bs.map asmPB

/-- `LOOP <code>, <param>` (R84). The bytes `obuf[0], …, obuf[9]` it offers are those SERIALIZE has just written,
the bytes of `frame(code, param)` (R90; DEDUCED, assumption log 13). -/
def asmLOOP (code : Byte) (param : Word16) : List Event :=
  asmSER code param 10 :: asmPBS (buildFrame code param).bytes

end Sys2Proof.Machine
end

