-- ==== Sys2Proof/Safety.lean ====
section
/-! DEFINITION. What counts as a safe state, and the words claims about runs use. -/

namespace Sys2Proof.Machine

/-- The Parser invariant (spec/10_state.md R24). That `pos` is in 0..9 is its type. -/
def Parser.Inv (p : Parser) : Prop :=
  (1 ≤ p.pos.val → p.buf[0] = 0x7E) ∧ (2 ≤ p.pos.val → p.buf[1] = 0xFF) ∧ (3 ≤ p.pos.val → p.buf[2] = 0x06)

/-- The Parser's outputs show a result the block produces (spec/30_encoding.md R75, U6). -/
def ParserOutputs.Inv (o : ParserOutputs) : Prop := o.resValid = true → o.resKind ≠ 0b11

/-- The Encoder's outputs show a result the block produces (R75): a valid frame of length 10, or an error of length 0. -/
def EncoderOutputs.Inv (o : EncoderOutputs) : Prop :=
  o.encDone = true →
    (o.encStatus = true → o.encLen = 0) ∧
    (o.encStatus = false → o.encLen = 10 ∧ frameValid (Frame.ofWord o.encFrame) = true)

/-- A state a run can be in. -/
structure State.Inv (s : State) : Prop where
  parser : s.parser.Inv
  parserOut : s.parserOut.Inv
  encoderOut : s.encoderOut.Inv
  obuf : s.obuf.wf
  /-- A result on the Encoder's outputs is one of the buffer the Host gave last (R91). -/
  capacity : s.encoderOut.encDone = true → (s.encoderOut.encStatus = true ↔ s.cap < 10)

/-- Two Parsers no operation can tell apart: the same position, and the same bytes in the slots below it. The slots at
and beyond `pos` are read by no rule (R23). -/
def Parser.Same (p q : Parser) : Prop :=
  p.pos = q.pos ∧ ∀ k : Pos, k.val < p.pos.val → p.buf[k] = q.buf[k]

/-- Nothing of the Host's changed: every byte of `obuf` reads as before, and so do its capacity and what is pending. -/
def HostUntouched (s t : State) : Prop :=
  (∀ a, t.obuf.read a = s.obuf.read a) ∧ t.cap = s.cap ∧ t.pending = s.pending

/-- The sum of six bytes as a number, which no 16-bit word can hold too little for (spec/40_codec.md R86). -/
def byteSum (b1 b2 b3 b4 b5 b6 : Byte) : Nat :=
  b1.toNat + b2.toNat + b3.toNat + b4.toNat + b5.toNat + b6.toNat

/-- The two bytes of a 16-bit field as a number, big-endian (spec/20_memory.md R42). -/
def fieldValue (hi lo : Byte) : Nat := hi.toNat * 256 + lo.toNat

/-- The buffered checksum agrees with the buffered bytes at offsets 1 to 6 (spec/41_parser.md R110), in numbers. -/
def Parser.Agrees (p : Parser) : Prop :=
  fieldValue p.buf[7] p.buf[8] =
    (65536 - byteSum p.buf[1] p.buf[2] p.buf[3] p.buf[4] p.buf[5] p.buf[6]) % 65536

/-- `PBS` as the Host issues it (R84): PROCESS_BYTE after PROCESS_BYTE, collecting the results. None if one of them
does not answer a next state. -/
def processAll : List Byte → State → Option (State × List OpResult)
  | [], s => some (s, [])
  | b :: bs, s =>
    match exec (.processByte b 0) s with
    | .next t =>
      match processAll bs t with
      | some (u, rs) => some (u, t.results ++ rs)
      | none => none
    | .fault _ => none
    | .refused _ => none

end Sys2Proof.Machine
end

