-- ==== Sys2Proof/Certificates/Slice0/Obligations.lean ====
section
/-! DEFINITION. The statements for the provers. Each docstring names the rule of spec/ it formalises. -/

open Sys2Proof Sys2Proof.Machine

/-! ### Words and decoding -/

/-- R72, R74: `op` alone chooses the operation, and the operands are bits 9:2 and 25:10. -/
def Obligations.HostopFieldsChooseOperation : Prop :=
  ∀ w : HostopWord,
    (w.toNat % 4 = 0 → decode (.hostop w) = .ok (.idle (BitVec.ofNat 24 (w.toNat / 4)))) ∧
    (w.toNat % 4 = 1 → decode (.hostop w) =
      .ok (.processByte (BitVec.ofNat 8 (w.toNat / 4)) (BitVec.ofNat 16 (w.toNat / 1024)))) ∧
    (w.toNat % 4 = 2 → decode (.hostop w) =
      .ok (.serialize (BitVec.ofNat 8 (w.toNat / 4)) (BitVec.ofNat 16 (w.toNat / 1024)))) ∧
    (w.toNat % 4 = 3 → decode (.hostop w) = .ok (.clear (BitVec.ofNat 24 (w.toNat / 4))))

/-- Decoding the word of a well-formed instruction gives it back, every operand at every value. -/
def Obligations.DecodeEncodeRoundTrip : Prop :=
  ∀ i : Instr, i.wellFormed = true → decode (encode i) = .ok i

/-- Each word has one meaning: the instruction a word decodes to is well formed and encodes to that word. -/
def Obligations.EncodeDecodeRoundTrip : Prop :=
  ∀ (c : CodeWord) (i : Instr), decode c = .ok i → encode i = c ∧ i.wellFormed = true

/-- R69: the mask and the pattern say exactly that the bytes at offsets 0, 1, 2 and 9 are the fixed ones, and exactly
those words decode to a frame, the frame of their ten bytes. -/
def Obligations.FramePatternFixesFourBytes : Prop :=
  ∀ w : FrameWord,
    (w &&& 0xFFFFFF000000000000FF = 0x7EFF06000000000000EF ↔
      w.toNat / 2 ^ 72 = 0x7E ∧ w.toNat / 2 ^ 64 % 256 = 0xFF ∧ w.toNat / 2 ^ 56 % 256 = 0x06 ∧
        w.toNat % 256 = 0xEF) ∧
    (w &&& 0xFFFFFF000000000000FF = 0x7EFF06000000000000EF ↔
      ∃ f : Frame, decode (.frame w) = .ok (.frame f) ∧ ∀ k < 10, f.bytes[k]? =
        some (BitVec.ofNat 8 (w.toNat / 2 ^ (72 - 8 * k))))

/-- R70: a frame is valid exactly when it has the structure and its checksum field is the negated sum, in numbers. -/
def Obligations.ValidFrameByArithmetic : Prop :=
  ∀ f : Frame, frameValid f = true ↔
    f.start = 0x7E ∧ f.version = 0xFF ∧ f.length = 0x06 ∧ f.endMark = 0xEF ∧
      fieldValue f.checksumHigh f.checksumLow =
        (65536 - byteSum f.version f.length f.code f.feedback f.paramHigh f.paramLow) % 65536

/-- Words written out in 95_test_vectors.md (V-W1 to V-W9, V-F1, V-F3, V-F4) decode as they say there. -/
def Obligations.SpecWordsDecode : Prop :=
  decode (.hostop 0x00001F9) = .ok (.processByte 0x7E 0) ∧
  decode (.hostop 0x0000001) = .ok (.processByte 0x00 0) ∧
  decode (.hostop 0x048D3FD) = .ok (.processByte 0xFF 0x1234) ∧
  decode (.hostop 0x0000406) = .ok (.serialize 0x01 0x0001) ∧
  decode (.hostop 0x02EDC0E) = .ok (.serialize 0x03 0x0BB7) ∧
  decode (.hostop 0x3FFFFFE) = .ok (.serialize 0xFF 0xFFFF) ∧
  decode (.hostop 0x0000003) = .ok (.clear 0) ∧
  decode (.hostop 0x337BEAF) = .ok (.clear 0xCDEFAB) ∧
  decode (.hostop 0x0000000) = .ok (.idle 0) ∧
  decode (.frame 0x7EFF0601000001FEF9EF) =
    .ok (.frame ⟨0x7E, 0xFF, 0x06, 0x01, 0x00, 0x00, 0x01, 0xFE, 0xF9, 0xEF⟩) ∧
  decode (.frame 0x7EFF0701000001FEF9EF) = .error (.notAFrame 0x7EFF0701000001FEF9EF) ∧
  decode (.frame 0x7EFF0601000001FEF8EF) =
    .ok (.frame ⟨0x7E, 0xFF, 0x06, 0x01, 0x00, 0x00, 0x01, 0xFE, 0xF8, 0xEF⟩)

/-- A step runs the instruction its next operation decodes to, in the buffer given beside the word, and a word placed
before everything else runs first. That operations wait in a list and `withFetchWord` puts one first is the model's choice
(DESIGN CHOICE, assumption log 12), so is that the last capacity stays where none is given (log 7) and how a number of
`nbits` bits is a word (log 15). -/
def Obligations.StepRunsDecodedInstruction : Prop :=
  (∀ (s : State) (word : CodeWord) (cap : Option Nat) (rest : List Event) (i : Instr),
    s.pending = .op word cap :: rest → decode word = .ok i →
    step s = exec i { s with pending := rest, cap := cap.getD s.cap }) ∧
  (∀ (s : State) (nbits w : Nat) (i : Instr), decodeTableWord nbits w = some i →
    step (s.withFetchWord nbits w) = exec i s)

/-! ### IDLE and the ignored fields -/

/-- R73: ignored fields change nothing and make no word illegal, and IDLE changes no state of the block and returns no
result. -/
def Obligations.IgnoredFieldsAndIdle : Prop :=
  (∀ w : HostopWord, ∃ i, decode (.hostop w) = .ok i) ∧
  (∀ (b : Byte) (x y : BitVec 16) (s : State), exec (.processByte b x) s = exec (.processByte b y) s) ∧
  (∀ (x y : BitVec 24) (s : State), exec (.clear x) s = exec (.clear y) s) ∧
  (∀ (x y : BitVec 24) (s : State), exec (.idle x) s = exec (.idle y) s) ∧
  (∀ (x : BitVec 24) (s : State), ∃ t, exec (.idle x) s = .next t ∧ t.parser = s.parser ∧ HostUntouched s t ∧
    t.results = [])

/-! ### PROCESS_BYTE -/

/-- R101, AwaitStart. -/
def Obligations.AwaitStartArm : Prop :=
  ∀ (b : Byte) (x : BitVec 16) (s : State), s.parser.pos = 0 →
    ∃ t, exec (.processByte b x) s = .next t ∧ t.results = [.parse .incomplete] ∧ HostUntouched s t ∧
      (b = 0x7E → t.parser.pos = 1 ∧ t.parser.buf[0] = 0x7E ∧ ∀ k : Pos, k ≠ 0 → t.parser.buf[k] = s.parser.buf[k]) ∧
      (b ≠ 0x7E → t.parser = s.parser)

/-- R102, AwaitVersion. -/
def Obligations.AwaitVersionArm : Prop :=
  ∀ (b : Byte) (x : BitVec 16) (s : State), s.parser.pos = 1 →
    ∃ t, exec (.processByte b x) s = .next t ∧ HostUntouched s t ∧
      (b = 0xFF → t.results = [.parse .incomplete] ∧ t.parser.pos = 2 ∧ t.parser.buf[1] = 0xFF ∧
        ∀ k : Pos, k ≠ 1 → t.parser.buf[k] = s.parser.buf[k]) ∧
      (b ≠ 0xFF → t.results = [.parse (.error .framingError)] ∧ t.parser.pos = 0)

/-- R103, AwaitLength. -/
def Obligations.AwaitLengthArm : Prop :=
  ∀ (b : Byte) (x : BitVec 16) (s : State), s.parser.pos = 2 →
    ∃ t, exec (.processByte b x) s = .next t ∧ HostUntouched s t ∧
      (b = 0x06 → t.results = [.parse .incomplete] ∧ t.parser.pos = 3 ∧ t.parser.buf[2] = 0x06 ∧
        ∀ k : Pos, k ≠ 2 → t.parser.buf[k] = s.parser.buf[k]) ∧
      (b ≠ 0x06 → t.results = [.parse (.error .framingError)] ∧ t.parser.pos = 0)

/-- R104 to R109, the six states that buffer any byte and advance. -/
def Obligations.DataArmsBufferAndAdvance : Prop :=
  ∀ (b : Byte) (x : BitVec 16) (s : State), 3 ≤ s.parser.pos.val → s.parser.pos.val ≤ 8 →
    ∃ t, exec (.processByte b x) s = .next t ∧ HostUntouched s t ∧ t.results = [.parse .incomplete] ∧
      t.parser.pos.val = s.parser.pos.val + 1 ∧ t.parser.buf[s.parser.pos] = b ∧
      ∀ k : Pos, k ≠ s.parser.pos → t.parser.buf[k] = s.parser.buf[k]

/-- R110 with R112, AwaitEnd: the checksum first, then the end marker, then the message. -/
def Obligations.AwaitEndArm : Prop :=
  ∀ (b : Byte) (x : BitVec 16) (s : State), s.parser.pos = 9 →
    ∃ t, exec (.processByte b x) s = .next t ∧ HostUntouched s t ∧ t.parser.pos = 0 ∧
      (¬ s.parser.Agrees → t.results = [.parse (.error .checksumMismatch)]) ∧
      (s.parser.Agrees → b ≠ 0xEF → t.results = [.parse (.error .framingError)]) ∧
      (s.parser.Agrees → b = 0xEF → t.results = [.parse (.complete
        (match Config.commands.lookup s.parser.buf[3] with
          | some v => .known v (BitVec.ofNat 16 (fieldValue s.parser.buf[5] s.parser.buf[6]))
          | none => .unknownCommand s.parser.buf[3]))])

/-- R111: the byte that causes an error is consumed. Whatever it was, the next byte is the first one examined in
AwaitStart. -/
def Obligations.OffendingByteConsumed : Prop :=
  ∀ (b c : Byte) (x y : BitVec 16) (s t : State) (k : ParseErrorKind),
    exec (.processByte b x) s = .next t → t.results = [.parse (.error k)] →
    ∃ u, exec (.processByte c y) t = .next u ∧ u.results = [.parse .incomplete] ∧
      (c = 0x7E → u.parser.pos = 1) ∧ (c ≠ 0x7E → u.parser.pos = 0)

/-- R113: a frame with an unknown code that passes R110 is a message and no error, whatever the command table. -/
def Obligations.UnknownCodeIsNoError : Prop :=
  ∀ (t : CommandTable) (n : Nat) (p : Parser), p.pos = 9 → p.Agrees → t.lookup p.buf[3] = none →
    (p.processByte t n 0xEF).2 = .complete (.unknownCommand p.buf[3])

/-- R116: the two ways to say when PROCESS_BYTE completes. In one step: exactly at `pos` = 9 with a valid frame in the
buffer and the byte. Over a stream from AwaitStart: exactly when the last ten bytes are a valid frame whose first byte
was offered in AwaitStart. The first needs the Parser invariant, which R24 gives. -/
def Obligations.CompleteExactlyOnValidFrame : Prop :=
  (∀ (b : Byte) (x : BitVec 16) (s : State), s.parser.Inv →
    ∃ t, exec (.processByte b x) s = .next t ∧ ∀ m : Message, t.results = [.parse (.complete m)] ↔
      s.parser.pos = 9 ∧ frameValid (s.parser.candidate b) = true ∧
        m = decodeMessage Config.commands s.parser.buf[3] (wordOfBytes s.parser.buf[5] s.parser.buf[6])) ∧
  (∀ (s : State) (bs : List Byte), s.parser.pos = 0 → bs ≠ [] →
    ∃ u rs, processAll bs s = some (u, rs) ∧ ∀ m : Message, rs.getLast? = some (.parse (.complete m)) ↔
      ∃ before f mid rs', bs = before ++ f.bytes ∧ frameValid f = true ∧
        m = decodeMessage Config.commands f.code (frameParam f) ∧
        processAll before s = some (mid, rs') ∧ mid.parser.pos = 0)

/-- R117: what SERIALIZE writes, offered byte by byte, comes back as the message of its operands, and for a command under
any well-formed table that message is the command. -/
def Obligations.RoundTripOfACommand : Prop :=
  (∀ (code : Byte) (param : Word16) (s : State), s.parser.pos = 0 → 10 ≤ s.cap →
    ∃ t bs u, exec (.serialize code param) s = .next t ∧ t.results = [.serialize (.ok 10)] ∧
      bs.length = 10 ∧ (∀ k < 10, t.obuf.read k = bs[k]?) ∧
      processAll bs t = some (u, List.replicate 9 (.parse .incomplete) ++
        [.parse (.complete (decodeMessage Config.commands code param))]) ∧ u.parser.pos = 0) ∧
  (∀ (tab : CommandTable) (v : Variant) (p : Word16), v ∈ tab.variants →
    ∃ c q, encOperands tab v p = some (c, q) ∧
      decodeMessage tab c q = .known v (if tab.hasParam v = true then p else 0))

/-- R118: after a Complete, an Error and a CLEAR, `pos` is 0; after an Incomplete it is one more, or stays 0 when a
non-start byte was discarded. -/
def Obligations.PosReturnsOrAdvances : Prop :=
  (∀ (b : Byte) (x : BitVec 16) (s : State), ∃ t r, exec (.processByte b x) s = .next t ∧ t.results = [.parse r] ∧
    (r ≠ .incomplete → t.parser.pos = 0) ∧
    (r = .incomplete → t.parser.pos.val = s.parser.pos.val + 1 ∨
      s.parser.pos = 0 ∧ t.parser.pos = 0 ∧ b ≠ 0x7E)) ∧
  (∀ (x : BitVec 24) (s : State), ∃ t, exec (.clear x) s = .next t ∧ t.parser.pos = 0)

/-- R119: a stray start marker in AwaitStart followed at once by a valid frame loses that frame: its own start marker is
a framing error and nothing after it completes. -/
def Obligations.StrayStartLosesFrame : Prop :=
  ∀ (f : Frame) (s : State), s.parser.pos = 0 → frameValid f = true →
    ∃ u rs, processAll (0x7E :: f.bytes) s =
        some (u, .parse .incomplete :: .parse (.error .framingError) :: rs) ∧
      rs.length = 9 ∧ ∀ m : Message, OpResult.parse (.complete m) ∉ rs

/-- R101 with R110 (the document's resynchronization property, L1-3): any number of bytes other than 0x7E before a valid
frame is discarded silently and the frame is decoded. -/
def Obligations.GarbageBeforeFrameDiscarded : Prop :=
  ∀ (garbage : List Byte) (f : Frame) (s : State), s.parser.pos = 0 → (0x7E : Byte) ∉ garbage → frameValid f = true →
    ∃ u, processAll (garbage ++ f.bytes) s = some (u, List.replicate (garbage.length + 9) (.parse .incomplete) ++
      [.parse (.complete (decodeMessage Config.commands f.code (frameParam f)))]) ∧ u.parser.pos = 0

/-- R132 and R134: the three error values, each exactly at its cause and with its code on the ports, at most one per
operation, the Parser back in AwaitStart after its own. -/
def Obligations.ErrorsExactlyAtTheirCauses : Prop :=
  (∀ (b : Byte) (x : BitVec 16) (s : State), ∃ t r, exec (.processByte b x) s = .next t ∧ t.results = [.parse r] ∧
    (r = .error .framingError ↔
      s.parser.pos = 1 ∧ b ≠ 0xFF ∨ s.parser.pos = 2 ∧ b ≠ 0x06 ∨
        s.parser.pos = 9 ∧ s.parser.Agrees ∧ b ≠ 0xEF) ∧
    (r = .error .checksumMismatch ↔ s.parser.pos = 9 ∧ ¬ s.parser.Agrees) ∧
    (r = .error .framingError → t.parserOut.resKind = 0b10 ∧ t.parserOut.resErr = false ∧ t.parser.pos = 0) ∧
    (r = .error .checksumMismatch → t.parserOut.resKind = 0b10 ∧ t.parserOut.resErr = true ∧ t.parser.pos = 0)) ∧
  (∀ (code : Byte) (param : Word16) (s : State), ∃ t r, exec (.serialize code param) s = .next t ∧
    t.results = [.serialize r] ∧ (r = .err .bufferTooSmall ↔ s.cap < 10) ∧
    (r = .err .bufferTooSmall → t.encoderOut.encStatus = true))

/-- R23 (D12): the slots at and beyond `pos` are not observable. Two Parsers alike below `pos`, under the same or another
draw counter and in otherwise any states, give the same results for every stream and stay alike. -/
def Obligations.SlotsBeyondPosUnobservable : Prop :=
  ∀ (bs : List Byte) (s t : State), s.parser.Same t.parser →
    ∃ s' t' rs, processAll bs s = some (s', rs) ∧ processAll bs t = some (t', rs) ∧ s'.parser.Same t'.parser

/-- R25 (D24): a running sum cleared at reset, CLEAR and the end of a frame, and increased by each byte buffered at
offsets 1 to 6, always equals `acc`. -/
def Obligations.RunningSumEqualsAcc : Prop :=
  (∀ p : Parser, p.pos.val ≤ 1 → p.acc = 0) ∧
  (∀ (t : CommandTable) (n : Nat) (b : Byte) (p : Parser),
    (p.processByte t n b).1.pos.val = p.pos.val + 1 →
      (p.processByte t n b).1.acc = if 1 ≤ p.pos.val ∧ p.pos.val ≤ 6 then p.acc + zext16 b else p.acc) ∧
  (∀ p : Parser, p.pos = 9 →
    p.acc.toNat = byteSum p.buf[1] p.buf[2] p.buf[3] p.buf[4] p.buf[5] p.buf[6])

/-- R32 (D13): the 4-bit register of a position gives the position back, and a register at 10 to 15 is AwaitStart. -/
def Obligations.PosRegisterEncoding : Prop :=
  (∀ p : Pos, (registerOfPos p).toNat = p.val ∧ posOfRegister (registerOfPos p) = p) ∧
  (∀ r : BitVec 4, 10 ≤ r.toNat → posOfRegister r = 0)

/-! ### The checksum -/

/-- R85 with R14: the checksum as a number. -/
def Obligations.ChecksumIsNegatedSum : Prop :=
  ∀ b1 b2 b3 b4 b5 b6 : Byte,
    (checksum b1 b2 b3 b4 b5 b6).toNat = (65536 - byteSum b1 b2 b3 b4 b5 b6) % 65536

/-- R86: the sum of six bytes never wraps, the checksum is 0 exactly for six zero bytes, and the range of the sum and of
the checksum once version and length are fixed. -/
def Obligations.ChecksumRange : Prop :=
  (∀ b1 b2 b3 b4 b5 b6 : Byte,
    (sum16 [b1, b2, b3, b4, b5, b6]).toNat = byteSum b1 b2 b3 b4 b5 b6 ∧
    byteSum b1 b2 b3 b4 b5 b6 ≤ 0x5FA ∧
    (checksum b1 b2 b3 b4 b5 b6 = 0 ↔ b1 = 0 ∧ b2 = 0 ∧ b3 = 0 ∧ b4 = 0 ∧ b5 = 0 ∧ b6 = 0)) ∧
  (∀ b3 b4 b5 b6 : Byte,
    0x105 ≤ (sum16 [0xFF, 0x06, b3, b4, b5, b6]).toNat ∧ (sum16 [0xFF, 0x06, b3, b4, b5, b6]).toNat ≤ 0x501 ∧
    0xFAFF ≤ (checksum 0xFF 0x06 b3 b4 b5 b6).toNat ∧ (checksum 0xFF 0x06 b3 b4 b5 b6).toNat ≤ 0xFEFB)

/-- R87: the equivalent test. -/
def Obligations.ChecksumEquivalentTest : Prop :=
  ∀ (b1 b2 b3 b4 b5 b6 : Byte) (c : Word16), c = checksum b1 b2 b3 b4 b5 b6 ↔
    ((sum16 [b1, b2, b3, b4, b5, b6]).toNat + c.toNat) % 65536 = 0

/-! ### SERIALIZE -/

/-- R89, R90: with ten bytes or more SERIALIZE writes the frame, byte for byte, and nothing else. With fewer it returns
BufferTooSmall and writes nothing at or beyond `cap`. The Parser is not touched. -/
def Obligations.SerializeWritesFrame : Prop :=
  ∀ (code : Byte) (param : Word16) (s : State),
    ∃ t, exec (.serialize code param) s = .next t ∧ t.parser = s.parser ∧ t.cap = s.cap ∧ t.pending = s.pending ∧
      (10 ≤ s.cap → t.results = [.serialize (.ok 10)] ∧
        (∀ a, 10 ≤ a → t.obuf.read a = s.obuf.read a) ∧
        ∀ a < 10, t.obuf.read a =
          [0x7E, 0xFF, 0x06, code, 0x00, BitVec.ofNat 8 (param.toNat / 256), BitVec.ofNat 8 param.toNat,
            BitVec.ofNat 8 ((65536 - (0x105 + code.toNat + param.toNat / 256 + param.toNat % 256)) / 256),
            BitVec.ofNat 8 (65536 - (0x105 + code.toNat + param.toNat / 256 + param.toNat % 256)), 0xEF][a]?) ∧
      (s.cap < 10 → t.results = [.serialize (.err .bufferTooSmall)] ∧
        ∀ a, s.cap ≤ a → t.obuf.read a = s.obuf.read a)

/-- R91: a buffer of 0 to 9 bytes gives BufferTooSmall; no state of the block changes, nothing outside those bytes does,
and a retry with a larger buffer succeeds. -/
def Obligations.BufferTooSmallIsRecoverable : Prop :=
  ∀ (code : Byte) (param : Word16) (s : State), s.cap ≤ 9 →
    ∃ t, exec (.serialize code param) s = .next t ∧ t.results = [.serialize (.err .bufferTooSmall)] ∧
      t.parser = s.parser ∧ (∀ a, s.cap ≤ a → t.obuf.read a = s.obuf.read a) ∧
      ∀ cap', 10 ≤ cap' → ∃ u, exec (.serialize code param) { t with cap := cap' } = .next u ∧
        u.results = [.serialize (.ok 10)]

/-- R92: the feedback byte of every serialized frame is 0x00. -/
def Obligations.FeedbackByteAlwaysZero : Prop :=
  ∀ (code : Byte) (param : Word16) (s : State), 10 ≤ s.cap →
    ∃ t, exec (.serialize code param) s = .next t ∧ t.obuf.read 4 = some 0x00

/-- R94: the sum and the checksum of a serialized frame, the four values of its high byte, and that its low byte can be
any byte. -/
def Obligations.SerializedChecksumRange : Prop :=
  (∀ (code : Byte) (param : Word16),
    (frameSum (buildFrame code param)).toNat = 0x105 + code.toNat + param.toNat / 256 + param.toNat % 256 ∧
    (frameSum (buildFrame code param)).toNat ≤ 0x402 ∧
    0xFBFE ≤ (frameChecksum (buildFrame code param)).toNat ∧
    (frameChecksum (buildFrame code param)).toNat ≤ 0xFEFB ∧
    (buildFrame code param).checksumHigh ∈ ([0xFB, 0xFC, 0xFD, 0xFE] : List Byte)) ∧
  (∀ low : Byte, ∃ code param, (buildFrame code param).checksumLow = low)

/-- R95: equal operands write equal bytes and return Ok(10), in any two states. -/
def Obligations.EncoderIsPure : Prop :=
  ∀ (code : Byte) (param : Word16) (s s' : State), 10 ≤ s.cap → 10 ≤ s'.cap →
    ∃ t t', exec (.serialize code param) s = .next t ∧ exec (.serialize code param) s' = .next t' ∧
      t.results = [.serialize (.ok 10)] ∧ t'.results = [.serialize (.ok 10)] ∧
      t.encoderOut.encFrame = t'.encoderOut.encFrame ∧ ∀ a < 10, t.obuf.read a = t'.obuf.read a

/-- R84 through the step: LOOP takes eleven steps from any state in AwaitStart, leaves the frame in `obuf`, and its last
result is the message of its operands. That the events wait in a list is the model's choice (DESIGN CHOICE, assumption log
12), and that LOOP offers the bytes of the frame is DEDUCED from R90 (log 13). -/
def Obligations.LoopRunsThroughStep : Prop :=
  ∀ (code : Byte) (param : Word16) (rest : List Event) (s : State), s.parser.pos = 0 →
    s.pending = asmLOOP code param ++ rest →
    ∃ t, Host.Core.run Sys2Proof.core 11 s = .next t ∧ t.pending = rest ∧ t.parser.pos = 0 ∧
      t.results = [.parse (.complete (decodeMessage Config.commands code param))] ∧
      ∀ k < 10, t.obuf.read k = (buildFrame code param).bytes[k]?

/-! ### CLEAR -/

/-- R114: CLEAR puts the Parser in AwaitStart without a result and leaves the Encoder's buffer alone; in AwaitStart it
changes nothing observable, and after it a valid frame is decoded whole. -/
def Obligations.ClearDiscardsCandidate : Prop :=
  ∀ (x : BitVec 24) (s : State), ∃ t, exec (.clear x) s = .next t ∧ t.parser.pos = 0 ∧ t.results = [] ∧
    HostUntouched s t ∧
    (s.parser.pos = 0 → ∀ bs, ∃ s' t' rs, processAll bs s = some (s', rs) ∧ processAll bs t = some (t', rs)) ∧
    ∀ f : Frame, frameValid f = true → ∃ u, processAll f.bytes t =
      some (u, List.replicate 9 (.parse .incomplete) ++
        [.parse (.complete (decodeMessage Config.commands f.code (frameParam f)))])

/-! ### FRAME -/

/-- FRAME is `PBS` of its ten bytes: the same Parser, outputs and draws at the end, and the ten results in order. That a
frame word stands for this is the model's choice (assumption log 8), from R18, R44 and R84. -/
def Obligations.FrameIsItsTenBytes : Prop :=
  ∀ (f : Frame) (s : State), ∃ t rs, processAll f.bytes s = some (t, rs) ∧ rs.length = 10 ∧
    exec (.frame f) s = .next { t with results := rs } ∧ HostUntouched s t

/-- A structurally right frame that meets the Parser in AwaitStart ends with a message exactly when its checksum agrees,
and with ChecksumMismatch otherwise (R110, R116; the FRAME row is the model's choice, assumption log 8). -/
def Obligations.FrameMeetsParserInAwaitStart : Prop :=
  ∀ (f : Frame) (s : State), s.parser.pos = 0 → (Instr.frame f).wellFormed = true →
    ∃ t, exec (.frame f) s = .next t ∧ t.parser.pos = 0 ∧ HostUntouched s t ∧
      t.results = List.replicate 9 (.parse .incomplete) ++
        [.parse (if frameValid f = true then .complete (decodeMessage Config.commands f.code (frameParam f))
          else .error .checksumMismatch)]

/-! ### Ports and edges -/

/-- R75: the results of the operations on the ports. The Parser's table is stated for every command table, and PROCESS_BYTE
shows it for the configured one. -/
def Obligations.ResultsOnThePorts : Prop :=
  (∀ (t : CommandTable) (n : Nat) (b : Byte) (p : Parser) (r : ParseResult) (o : ParserOutputs),
    r = (p.processByte t n b).2 → o = (parserEdge t n (Pins.offer b) p).2 →
    o.resValid = true ∧ o.resKind ≠ 0b11 ∧
    (r = .incomplete → o.resKind = 0b00) ∧
    (∀ v q, r = .complete (.known v q) → o.resKind = 0b01 ∧ o.msgKnown = true ∧
      o.msgCode = p.buf[3] ∧ codeOf t v = some p.buf[3] ∧ o.msgParam = q) ∧
    (∀ c, r = .complete (.unknownCommand c) → o.resKind = 0b01 ∧ o.msgKnown = false ∧
      o.msgCode = c ∧ o.msgParam = wordOfBytes p.buf[5] p.buf[6]) ∧
    (r = .error .framingError → o.resKind = 0b10 ∧ o.resErr = false) ∧
    (r = .error .checksumMismatch → o.resKind = 0b10 ∧ o.resErr = true)) ∧
  (∀ (b : Byte) (x : BitVec 16) (s : State), ∃ t, exec (.processByte b x) s = .next t ∧
    t.results = [.parse (s.parser.processByte Config.commands s.draws b).2] ∧
    t.parserOut = (parserEdge Config.commands s.draws (Pins.offer b) s.parser).2) ∧
  (∀ (code : Byte) (param : Word16) (s : State), ∃ t, exec (.serialize code param) s = .next t ∧
    t.encoderOut.encDone = true ∧
    (t.results = [.serialize (.ok 10)] → t.encoderOut.encStatus = false ∧ t.encoderOut.encLen = 10 ∧
      ∀ k < 10, t.obuf.read k = some (BitVec.ofNat 8 (t.encoderOut.encFrame.toNat / 2 ^ (72 - 8 * k)))) ∧
    (t.results = [.serialize (.err .bufferTooSmall)] → t.encoderOut.encStatus = true ∧ t.encoderOut.encLen = 0))

/-- R77: one edge of the Parser with neither `rst` nor `clear`. -/
def Obligations.ParserCycle : Prop :=
  ∀ (pins : Pins) (rest : List Event) (s : State), s.pending = .edge pins :: rest → pins.rst = false →
    pins.clear = false →
    ∃ t u, step s = .next t ∧ exec (.processByte pins.inByte 0) { s with pending := rest } = .next u ∧
      (pins.inValid = true → t.parser = u.parser ∧ t.parserOut.resValid = true ∧
        t.parserOut.read Config.commands = .ok u.results) ∧
      (pins.inValid = false → t.parser = s.parser ∧ t.parserOut.resValid = false)

/-- R78: an edge with `clear` performs CLEAR, takes no byte and gives no result. -/
def Obligations.ClearCycle : Prop :=
  ∀ (pins : Pins) (rest : List Event) (s : State), s.pending = .edge pins :: rest → pins.rst = false →
    pins.clear = true →
    ∃ t u, step s = .next t ∧ exec (.clear 0) { s with pending := rest } = .next u ∧ t.parser = u.parser ∧
      t.parser.pos = 0 ∧ t.parserOut.resValid = false

/-- R79: only the highest asserted of `rst`, `clear`, `in_valid` acts on the Parser, and neither unit's inputs reach the
other. -/
def Obligations.EdgePriorityAndIndependence : Prop :=
  ∀ (p q : Pins) (rest : List Event) (s : State), p.rst = q.rst →
    ∃ t u, step { s with pending := .edge p :: rest } = .next t ∧
      step { s with pending := .edge q :: rest } = .next u ∧
      (p.rst = true → t = u ∧ t.parser.pos = 0 ∧ t.parserOut.resValid = false) ∧
      (p.rst = false → p.clear = true → q.clear = true →
        t.parser = u.parser ∧ t.parserOut = u.parserOut ∧ t.parser.pos = 0 ∧ t.parserOut.resValid = false) ∧
      (p.clear = q.clear → p.inValid = q.inValid → p.inByte = q.inByte →
        t.parser = u.parser ∧ t.parserOut = u.parserOut) ∧
      (p.encReq = q.encReq → p.encCode = q.encCode → p.encParam = q.encParam → p.encCap = q.encCap →
        t.encoderOut = u.encoderOut)

/-- R80: one edge of the Encoder. -/
def Obligations.EncoderCycle : Prop :=
  ∀ (pins : Pins) (rest : List Event) (s : State), s.pending = .edge pins :: rest →
    ∃ t u, step s = .next t ∧
      exec (.serialize pins.encCode pins.encParam) { s with pending := rest, cap := pins.encCap.toNat } = .next u ∧
      (pins.rst = false → pins.encReq = true → t.encoderOut = u.encoderOut ∧ t.encoderOut.encDone = true ∧
        t.encoderOut.read = u.results) ∧
      (pins.rst = true ∨ pins.encReq = false → t.encoderOut.encDone = false)

/-- R150 and R31: an edge with `rst` puts every piece of state at its reset value, whatever else is asserted. -/
def Obligations.ResetEdge : Prop :=
  ∀ (pins : Pins) (rest : List Event) (s : State), s.pending = .edge pins :: rest → pins.rst = true →
    ∃ t, step s = .next t ∧ t.parser.pos = 0 ∧ t.parser.acc = 0 ∧ t.parserOut.resValid = false ∧
      t.encoderOut.encDone = false ∧ t.results = [] ∧ t.pending = rest ∧
      ∀ a, t.obuf.read a = s.obuf.read a

/-- R31: the values the spec gives the state right after reset. -/
def Obligations.ResetState : Prop :=
  State.reset.parser.pos = 0 ∧ State.reset.parser.acc = 0 ∧ State.reset.parserOut.resValid = false ∧
    State.reset.encoderOut.encDone = false

/-- R152: for the Parser, a reset edge and CLEAR have the same effect; only the reset edge drops an `enc_req`. -/
def Obligations.ResetAgreesWithClearOnParser : Prop :=
  ∀ (pins : Pins) (x : BitVec 24) (s : State), pins.rst = true →
    ∃ t u v, step { s with pending := .edge pins :: s.pending } = .next t ∧ exec (.clear x) s = .next u ∧
      step { s with pending := .edge { pins with rst := false, clear := true, encReq := true } :: s.pending } =
        .next v ∧
      t.parser = u.parser ∧ t.parser.pos = 0 ∧ t.parserOut.resValid = false ∧ t.encoderOut.encDone = false ∧
      v.parser = u.parser ∧ v.encoderOut.encDone = true

/-- The signal-level form refines PROCESS_BYTE (D1, D2): a byte offered at an edge and then the outputs read give the Host
the result of PROCESS_BYTE, and leave the same state. That PROCESS_BYTE as an operation is one edge with only its own inputs
asserted is DEDUCED (assumption log 10), and so is how the Host reads a variant from `msg_code` (log 19). -/
def Obligations.OfferThenSampleRefinesProcessByte : Prop :=
  ∀ (b : Byte) (x : BitVec 16) (rest : List Event) (s : State),
    s.pending = .edge (Pins.offer b) :: .sample :: rest →
    ∃ t u v, step s = .next t ∧ step t = .next u ∧
      exec (.processByte b x) { s with pending := rest } = .next v ∧ u = v

/-- R76 with R90 (D2): an edge with `enc_req`, then the Host's copy of `enc_frame`, have the effect of SERIALIZE for every
capacity: the same bytes in a buffer that is large enough; in one that is too small some byte or other in every place of it,
as after SERIALIZE, and every byte at or beyond it as SERIALIZE leaves it. The outputs read give the result of SERIALIZE.
That the Host copies at its own event and only then is the model's choice (DESIGN CHOICE, assumption log 9), that SERIALIZE
as an operation is edge and copy in one step is DEDUCED (log 21), and that it is one edge too (log 10). -/
def Obligations.RequestThenCopyRefinesSerialize : Prop :=
  ∀ (code : Byte) (param : Word16) (rest : List Event) (s : State),
    s.pending = .edge (Pins.request code param s.cap) :: .copyFrame :: .sample :: rest →
    ∃ t u v w, step s = .next t ∧ step t = .next u ∧ step u = .next v ∧
      exec (.serialize code param) { s with pending := rest } = .next w ∧
      v.results = w.results ∧ v.parser = w.parser ∧ v.encoderOut = w.encoderOut ∧ v.cap = w.cap ∧
      v.pending = w.pending ∧
      (10 ≤ s.cap → ∀ a, v.obuf.read a = w.obuf.read a) ∧
      (s.cap < 10 → ∀ a, (s.cap ≤ a → v.obuf.read a = w.obuf.read a ∧ v.obuf.read a = s.obuf.read a) ∧
        (a < s.cap → ∃ x y, v.obuf.read a = some x ∧ w.obuf.read a = some y))

/-- U6: the Host's reading of a reserved `res_kind` is a fault, and that is the only fault. -/
def Obligations.OnlyReservedKindFaults : Prop :=
  ∀ (s : State) (f : Fault), step s = .fault f ↔
    ∃ rest, s.pending = .sample :: rest ∧ s.parserOut.resValid = true ∧ s.parserOut.resKind = 0b11

/-! ### The whole machine -/

/-- R130: no Host operation faults, halts or gets stuck, in any state. -/
def Obligations.EveryOperationCompletes : Prop :=
  ∀ (i : Instr) (s : State), ∃ t, exec i s = .next t

/-- R40: only SERIALIZE writes the Host's buffer, and no operation touches its capacity or what is pending. -/
def Obligations.OnlySerializeWritesObuf : Prop :=
  ∀ (i : Instr) (s : State), ∃ t, exec i s = .next t ∧ t.cap = s.cap ∧ t.pending = s.pending ∧
    ((∀ code param, i ≠ .serialize code param) → ∀ a, t.obuf.read a = s.obuf.read a)

/-- R20, R26: only PROCESS_BYTE, CLEAR and FRAME change the Parser. That no operation but SERIALIZE leaves a result of the
Encoder on the ports, and none but PROCESS_BYTE and FRAME one of the Parser, is the model's reading: R77 and R80 say what an
edge does, and that each operation is one edge with only its own inputs asserted is DEDUCED (assumption log 10). -/
def Obligations.OnlyItsOperationsReachAUnit : Prop :=
  ∀ (i : Instr) (s : State), ∃ t, exec i s = .next t ∧
    ((∃ x, i = .idle x) ∨ (∃ code param, i = .serialize code param) →
      t.parser = s.parser ∧ t.parserOut.resValid = false) ∧
    ((∃ x, i = .clear x) → t.parserOut.resValid = false) ∧
    ((∀ code param, i ≠ .serialize code param) → t.encoderOut.encDone = false)

/-- R50: the order of a SERIALIZE and a PROCESS_BYTE cannot be observed: the results are the same, and so are the Parser
below `pos` and the bytes of a buffer that is large enough. -/
def Obligations.UnitsCommute : Prop :=
  ∀ (code : Byte) (param : Word16) (b : Byte) (x : BitVec 16) (s : State),
    ∃ t1 t2 u1 u2, exec (.serialize code param) s = .next t1 ∧ exec (.processByte b x) t1 = .next t2 ∧
      exec (.processByte b x) s = .next u1 ∧ exec (.serialize code param) u1 = .next u2 ∧
      t1.results = u2.results ∧ t2.results = u1.results ∧ t2.parser.Same u2.parser ∧
      (10 ≤ s.cap → ∀ a, t2.obuf.read a = u2.obuf.read a)

/-- R48: CLEAR repeated changes nothing more, SERIALIZE repeated writes the same bytes, and PROCESS_BYTE is not
idempotent: 0x7E then 0x7E gives Incomplete then a framing error. -/
def Obligations.Idempotency : Prop :=
  (∀ (x y : BitVec 24) (s : State), ∃ t u, exec (.clear x) s = .next t ∧ exec (.clear y) t = .next u ∧
    t.parser.Same u.parser) ∧
  (∀ (code : Byte) (param : Word16) (s : State), 10 ≤ s.cap → ∃ t u, exec (.serialize code param) s = .next t ∧
    exec (.serialize code param) t = .next u ∧ t.results = u.results ∧ ∀ a, t.obuf.read a = u.obuf.read a) ∧
  (∀ (x y : BitVec 16) (s : State), s.parser.pos = 0 →
    ∃ t u, exec (.processByte 0x7E x) s = .next t ∧ exec (.processByte 0x7E y) t = .next u ∧
      t.results = [.parse .incomplete] ∧ u.results = [.parse (.error .framingError)])

/-- R159: a partial frame stays for as long as no byte comes: with nothing pending a step changes nothing (that there is
such a step is the model's choice, DESIGN CHOICE, assumption log 12), IDLEs leave the Parser alone, and the byte after them
is taken as the candidate's next byte. -/
def Obligations.StalledFrameWaits : Prop :=
  (∀ s : State, s.pending = [] → step s = .next s) ∧
  (∀ (x : BitVec 24) (b : Byte) (y : BitVec 16) (s : State), ∃ t u v, exec (.idle x) s = .next t ∧
    exec (.processByte b y) t = .next u ∧ exec (.processByte b y) s = .next v ∧
    u.results = v.results ∧ u.parser.Same v.parser)

/-- R24: the Parser invariant holds after reset and every step keeps it. -/
def Obligations.ParserInvariantKept : Prop :=
  State.reset.parser.Inv ∧ ∀ s t : State, s.parser.Inv → step s = .next t → t.parser.Inv

/-- Every step keeps the whole invariant: the Parser's (R24), the outputs show only results the block produces (R75, U6),
a frame on `enc_frame` is valid (R70, R90), `obuf` keeps its canonical form, and the Encoder's status on the ports is that of
the capacity the Host gave last (R91; that an edge gives one is the model's choice, assumption log 24). -/
def Obligations.EveryStepKeepsInvariant : Prop :=
  ∀ s t : State, s.Inv → step s = .next t → t.Inv

/-- The invariant holds right after reset. -/
def Obligations.InvariantAtReset : Prop := State.reset.Inv

/-- From a state that meets the invariant no step faults (R130). -/
def Obligations.NoFaultUnderInvariant : Prop :=
  ∀ (s : State) (f : Fault), s.Inv → step s ≠ .fault f

/-- Every operation and every edge moves the draw counter on: FRAME by ten, the others by one (the model's own field,
DESIGN CHOICE, assumption log 5). -/
def Obligations.OperationsAndEdgesAdvanceDrawCounter : Prop :=
  (∀ (i : Instr) (s : State), ∃ t, exec i s = .next t ∧
    ((∃ f, i = .frame f) → t.draws = s.draws + 10) ∧ ((∀ f, i ≠ .frame f) → t.draws = s.draws + 1)) ∧
  (∀ (pins : Pins) (rest : List Event) (s : State), s.pending = .edge pins :: rest →
    ∃ t, step s = .next t ∧ t.draws = s.draws + 1)

/-- R23 (D12) as a step lemma: two states that differ only in Parser slots at and beyond `pos` take the same step, whatever
it is, to states that differ only so again: every operation, every edge, the copy and the reading of the ports. -/
def Obligations.EveryStepKeepsParsersSame : Prop :=
  ∀ (s s' : State) (q : Parser), s.parser.Same q → step s = .next s' →
    ∃ q', step { s with parser := q } = .next { s' with parser := q' } ∧ s'.parser.Same q'

/-- R90 (D10) over every step: from a state that meets the invariant, no byte at or beyond the capacity of the Host's buffer
is written, by an operation or by the Host's copy. Which capacity that is, is the model's choice (DESIGN CHOICE, assumption
log 7 and 24). -/
def Obligations.NothingWrittenBeyondCapacity : Prop :=
  ∀ s t : State, s.Inv → step s = .next t → ∀ a, t.cap ≤ a → t.obuf.read a = s.obuf.read a
end

