-- ==== Sys2Proof/Laws/Checksum.lean ====
section
/-! SUPPORT. Sums, checksums and 16-bit fields in numbers. -/

namespace Sys2Proof.Machine

theorem toNat_neg16 (v : Word16) : (neg16 v).toNat = (65536 - v.toNat) % 65536 := by
  simp [neg16]

/-- Six bytes never wrap a 16-bit sum (R86). -/
theorem toNat_sum16 (b1 b2 b3 b4 b5 b6 : Byte) :
    (sum16 [b1, b2, b3, b4, b5, b6]).toNat = byteSum b1 b2 b3 b4 b5 b6 := by
  simp only [sum16, zext16, byteSum, BitVec.toNat_add, BitVec.toNat_setWidth, BitVec.toNat_ofNat, BitVec.ofNat_eq_ofNat]
  omega

theorem toNat_wordOfBytes (hi lo : Byte) : (wordOfBytes hi lo).toNat = fieldValue hi lo := by
  simp only [wordOfBytes, fieldValue, BitVec.toNat_ofNat]
  omega

theorem toNat_highByte (v : Word16) : (highByte v).toNat = v.toNat / 256 := by
  simp only [highByte, BitVec.extractLsb'_toNat, Nat.shiftRight_eq_div_pow]
  omega

theorem toNat_lowByte (v : Word16) : (lowByte v).toNat = v.toNat % 256 := by
  simp [lowByte, BitVec.extractLsb'_toNat]

/-- The two bytes of a word give it back. -/
@[simp] theorem wordOfBytes_bytes (v : Word16) : wordOfBytes (highByte v) (lowByte v) = v := by
  apply BitVec.eq_of_toNat_eq
  rw [toNat_wordOfBytes, fieldValue, toNat_highByte, toNat_lowByte]
  omega

/-- The Parser's test of R110 on a candidate frame, in numbers. -/
theorem candidate_agrees (p : Parser) (b : Byte) :
    frameChecksum (p.candidate b) = neg16 (frameSum (p.candidate b)) ↔ p.Agrees := by
  rw [← BitVec.toNat_inj, toNat_neg16]
  simp only [frameChecksum, frameSum, Parser.candidate, Parser.Agrees, toNat_wordOfBytes, toNat_sum16]

end Sys2Proof.Machine
end

