-- ==== Sys2Proof/Laws/Decode.lean ====
section
/-! SUPPORT. The layouts in numbers: the fields of a HOSTOP word, and the bytes of a frame word. -/

namespace Sys2Proof

/-! ### HOSTOP words -/

theorem HostopWord.toNat_op (w : HostopWord) : w.op.toNat = w.toNat % 4 := by
  simp [HostopWord.op, BitVec.extractLsb'_toNat]

theorem HostopWord.toNat_d8 (w : HostopWord) : w.d8.toNat = w.toNat / 4 % 256 := by
  simp [HostopWord.d8, BitVec.extractLsb'_toNat, Nat.shiftRight_eq_div_pow]

theorem HostopWord.toNat_p16 (w : HostopWord) : w.p16.toNat = w.toNat / 1024 % 65536 := by
  simp [HostopWord.p16, BitVec.extractLsb'_toNat, Nat.shiftRight_eq_div_pow]

theorem HostopWord.toNat_rest (w : HostopWord) : w.rest.toNat = w.toNat / 4 % 16777216 := by
  simp [HostopWord.rest, BitVec.extractLsb'_toNat, Nat.shiftRight_eq_div_pow]

theorem HostopWord.toNat_ofFields (p16 : Word16) (d8 : Byte) (op : BitVec 2) :
    (HostopWord.ofFields p16 d8 op).toNat = p16.toNat * 1024 + d8.toNat * 4 + op.toNat := by
  simp only [HostopWord.ofFields, BitVec.toNat_ofNat]
  omega

theorem HostopWord.toNat_ofRest (rest : BitVec 24) (op : BitVec 2) :
    (HostopWord.ofRest rest op).toNat = rest.toNat * 4 + op.toNat := by
  simp only [HostopWord.ofRest, BitVec.toNat_ofNat]
  omega

/-- The `op` field as the mask of the table's HOSTOP rows reads it. -/
theorem HostopWord.and_three (w : HostopWord) : (w &&& 0x0000003).toNat = w.op.toNat := by
  rw [HostopWord.toNat_op, BitVec.toNat_and]
  exact Nat.and_two_pow_sub_one_eq_mod w.toNat 2

/-! ### Frame words -/

theorem FrameWord.toNat_byteAt (w : FrameWord) (k : Nat) :
    (w.byteAt k).toNat = w.toNat / 2 ^ (72 - 8 * k) % 256 := by
  simp [FrameWord.byteAt, BitVec.extractLsb'_toNat, Nat.shiftRight_eq_div_pow]

theorem FrameWord.byteAt_and (v w : FrameWord) (k : Nat) : (v &&& w : FrameWord).byteAt k = v.byteAt k &&& w.byteAt k := by
  apply BitVec.eq_of_getLsbD_eq
  intro i hi
  simp [FrameWord.byteAt, hi]

theorem Frame.toNat_toWord (f : Frame) :
    f.toWord.toNat = f.bytes.foldl (fun n b => n * 256 + b.toNat) 0 := by
  simp only [Frame.toWord, Frame.bytes, List.foldl_cons, List.foldl_nil, BitVec.toNat_ofNat]
  omega

/-- The ten bytes of the word of a frame are the frame's. -/
theorem Frame.ofWord_toWord (f : Frame) : Frame.ofWord f.toWord = f := by
  obtain ⟨b0, b1, b2, b3, b4, b5, b6, b7, b8, b9⟩ := f
  simp only [Frame.ofWord, Frame.mk.injEq]
  refine ⟨?_, ?_, ?_, ?_, ?_, ?_, ?_, ?_, ?_, ?_⟩ <;>
  · apply BitVec.eq_of_toNat_eq
    simp only [FrameWord.toNat_byteAt, Frame.toNat_toWord, Frame.bytes, List.foldl_cons, List.foldl_nil]
    omega

/-- Dropping a byte from the low end of a number and putting it back. -/
theorem horner_step (n k : Nat) : n / 2 ^ (k + 8) * 256 + n / 2 ^ k % 256 = n / 2 ^ k := by
  rw [pow_add, ← Nat.div_div_eq_div_mul]
  omega

/-- The word of the ten bytes of a word is that word. -/
theorem Frame.toWord_ofWord (w : FrameWord) : (Frame.ofWord w).toWord = w := by
  apply BitVec.eq_of_toNat_eq
  have top : w.toNat / 2 ^ 72 % 256 = w.toNat / 2 ^ 72 := by
    have := w.isLt
    omega
  have h := horner_step w.toNat
  simp only [Frame.toNat_toWord, Frame.bytes, Frame.ofWord, List.foldl_cons, List.foldl_nil, FrameWord.toNat_byteAt]
  rw [show 0 * 256 + w.toNat / 2 ^ (72 - 8 * 0) % 256 = w.toNat / 2 ^ (64 + 8) by simpa using top]
  rw [h 64, h 56, h 48, h 40, h 32, h 24, h 16, h 8, h 0, pow_zero, Nat.div_one]

/-- Two frame words with the same ten bytes are the same word. -/
theorem FrameWord.eq_of_bytes {v w : FrameWord} (h : Frame.ofWord v = Frame.ofWord w) : v = w := by
  rw [← Frame.toWord_ofWord v, h, Frame.toWord_ofWord]

end Sys2Proof
end

