-- ==== Sys2Proof/Laws/State.lean ====
section
/-! SUPPORT. One lemma per field per update of the state, all true by definition. -/

namespace Sys2Proof.Machine

variable (s : State)

@[simp] theorem State.setResults_parser (rs : List OpResult) : (s.setResults rs).parser = s.parser := rfl
@[simp] theorem State.setResults_parserOut (rs : List OpResult) : (s.setResults rs).parserOut = s.parserOut := rfl
@[simp] theorem State.setResults_encoderOut (rs : List OpResult) : (s.setResults rs).encoderOut = s.encoderOut := rfl
@[simp] theorem State.setResults_obuf (rs : List OpResult) : (s.setResults rs).obuf = s.obuf := rfl
@[simp] theorem State.setResults_cap (rs : List OpResult) : (s.setResults rs).cap = s.cap := rfl
@[simp] theorem State.setResults_pending (rs : List OpResult) : (s.setResults rs).pending = s.pending := rfl
@[simp] theorem State.setResults_results (rs : List OpResult) : (s.setResults rs).results = rs := rfl
@[simp] theorem State.setResults_draws (rs : List OpResult) : (s.setResults rs).draws = s.draws := rfl

@[simp] theorem State.setObuf_parser (m : Memory) : (s.setObuf m).parser = s.parser := rfl
@[simp] theorem State.setObuf_parserOut (m : Memory) : (s.setObuf m).parserOut = s.parserOut := rfl
@[simp] theorem State.setObuf_encoderOut (m : Memory) : (s.setObuf m).encoderOut = s.encoderOut := rfl
@[simp] theorem State.setObuf_obuf (m : Memory) : (s.setObuf m).obuf = m := rfl
@[simp] theorem State.setObuf_cap (m : Memory) : (s.setObuf m).cap = s.cap := rfl
@[simp] theorem State.setObuf_pending (m : Memory) : (s.setObuf m).pending = s.pending := rfl
@[simp] theorem State.setObuf_results (m : Memory) : (s.setObuf m).results = s.results := rfl
@[simp] theorem State.setObuf_draws (m : Memory) : (s.setObuf m).draws = s.draws := rfl

@[simp] theorem State.setCap_parser (c : Option Nat) : (s.setCap c).parser = s.parser := rfl
@[simp] theorem State.setCap_parserOut (c : Option Nat) : (s.setCap c).parserOut = s.parserOut := rfl
@[simp] theorem State.setCap_encoderOut (c : Option Nat) : (s.setCap c).encoderOut = s.encoderOut := rfl
@[simp] theorem State.setCap_obuf (c : Option Nat) : (s.setCap c).obuf = s.obuf := rfl
@[simp] theorem State.setCap_cap (c : Option Nat) : (s.setCap c).cap = c.getD s.cap := rfl
@[simp] theorem State.setCap_pending (c : Option Nat) : (s.setCap c).pending = s.pending := rfl
@[simp] theorem State.setCap_results (c : Option Nat) : (s.setCap c).results = s.results := rfl
@[simp] theorem State.setCap_draws (c : Option Nat) : (s.setCap c).draws = s.draws := rfl

@[simp] theorem State.setPending_parser (es : List Event) : (s.setPending es).parser = s.parser := rfl
@[simp] theorem State.setPending_parserOut (es : List Event) : (s.setPending es).parserOut = s.parserOut := rfl
@[simp] theorem State.setPending_encoderOut (es : List Event) : (s.setPending es).encoderOut = s.encoderOut := rfl
@[simp] theorem State.setPending_obuf (es : List Event) : (s.setPending es).obuf = s.obuf := rfl
@[simp] theorem State.setPending_cap (es : List Event) : (s.setPending es).cap = s.cap := rfl
@[simp] theorem State.setPending_pending (es : List Event) : (s.setPending es).pending = es := rfl
@[simp] theorem State.setPending_results (es : List Event) : (s.setPending es).results = s.results := rfl
@[simp] theorem State.setPending_draws (es : List Event) : (s.setPending es).draws = s.draws := rfl

@[simp] theorem State.clock_parser (p : Parser) (po : ParserOutputs) (eo : EncoderOutputs) : (s.clock p po eo).parser = p := rfl
@[simp] theorem State.clock_parserOut (p : Parser) (po : ParserOutputs) (eo : EncoderOutputs) : (s.clock p po eo).parserOut = po := rfl
@[simp] theorem State.clock_encoderOut (p : Parser) (po : ParserOutputs) (eo : EncoderOutputs) : (s.clock p po eo).encoderOut = eo := rfl
@[simp] theorem State.clock_obuf (p : Parser) (po : ParserOutputs) (eo : EncoderOutputs) : (s.clock p po eo).obuf = s.obuf := rfl
@[simp] theorem State.clock_cap (p : Parser) (po : ParserOutputs) (eo : EncoderOutputs) : (s.clock p po eo).cap = s.cap := rfl
@[simp] theorem State.clock_pending (p : Parser) (po : ParserOutputs) (eo : EncoderOutputs) : (s.clock p po eo).pending = s.pending := rfl
@[simp] theorem State.clock_results (p : Parser) (po : ParserOutputs) (eo : EncoderOutputs) : (s.clock p po eo).results = s.results := rfl
@[simp] theorem State.clock_draws (p : Parser) (po : ParserOutputs) (eo : EncoderOutputs) : (s.clock p po eo).draws = s.draws + 1 := rfl

@[simp] theorem State.nextDraw_parser : s.nextDraw.parser = s.parser := rfl
@[simp] theorem State.nextDraw_parserOut : s.nextDraw.parserOut = s.parserOut := rfl
@[simp] theorem State.nextDraw_encoderOut : s.nextDraw.encoderOut = s.encoderOut := rfl
@[simp] theorem State.nextDraw_obuf : s.nextDraw.obuf = s.obuf := rfl
@[simp] theorem State.nextDraw_cap : s.nextDraw.cap = s.cap := rfl
@[simp] theorem State.nextDraw_pending : s.nextDraw.pending = s.pending := rfl
@[simp] theorem State.nextDraw_results : s.nextDraw.results = s.results := rfl
@[simp] theorem State.nextDraw_draws : s.nextDraw.draws = s.draws + 1 := rfl

end Sys2Proof.Machine
end

