-- ==== Sys2Proof/Laws/Ops.lean ====
section
/-! SUPPORT. The laws of `obuf`, of the Parser's slots and of the position register. -/

namespace Sys2Proof.Machine

/-! ### Reading what was written -/

@[simp] theorem Memory.read_nil (i : Nat) : Memory.read [] i = none := rfl

/-- A byte read after a write: the value written at its index, the old byte everywhere else. -/
theorem Memory.read_write (m : Memory) (i j : Nat) (v : Byte) :
    (m.write i v).read j = if j = i then some v else m.read j := by
  induction m with
  | nil => by_cases h : i = j <;> simp [Memory.write, Memory.read, h, eq_comm]
  | cons c m ih =>
    obtain ⟨a, x⟩ := c
    by_cases h1 : i < a
    · by_cases hj : i = j
      · subst hj; simp [Memory.write, Memory.read, h1]
      · simp [Memory.write, Memory.read, h1, hj, eq_comm]
    · by_cases h2 : i = a
      · subst h2
        by_cases hj : i = j <;> simp [Memory.write, Memory.read, hj, eq_comm]
      · by_cases hj : a = j
        · subst hj; simp [Memory.write, Memory.read, h1, h2, eq_comm]
        · simp [Memory.write, Memory.read, h1, h2, hj, ih]

@[simp] theorem Memory.read_write_same (m : Memory) (i : Nat) (v : Byte) : (m.write i v).read i = some v := by
  simp [Memory.read_write]

theorem Memory.read_write_other (m : Memory) {i j : Nat} (v : Byte) (h : j ≠ i) :
    (m.write i v).read j = m.read j := by
  simp [Memory.read_write, h]

/-- A byte read after a list of bytes is written from index `i`. -/
theorem Memory.read_writeBytes (m : Memory) (i j : Nat) (vs : List Byte) :
    (m.writeBytes i vs).read j = if i ≤ j ∧ j < i + vs.length then vs[j - i]? else m.read j := by
  induction vs generalizing m i with
  | nil =>
    have h : ¬ (i ≤ j ∧ j < i) := by omega
    simp [Memory.writeBytes, h]
  | cons v vs ih =>
    rw [Memory.writeBytes, ih, Memory.read_write]
    rcases lt_trichotomy j i with h | h | h
    · have h1 : ¬ (i + 1 ≤ j ∧ j < i + 1 + vs.length) := by omega
      have h2 : ¬ (i ≤ j ∧ j < i + (v :: vs).length) := by omega
      have h3 : j ≠ i := by omega
      simp only [h1, h2, h3, if_false]
    · subst h
      simp
    · obtain ⟨d, rfl⟩ : ∃ d, j = i + d + 1 := ⟨j - i - 1, by omega⟩
      have h1 : i + d + 1 - (i + 1) = d := by omega
      have h2 : i + d + 1 - i = d + 1 := by omega
      have h3 : i + d + 1 ≠ i := by omega
      have h4 : (i + 1 ≤ i + d + 1 ∧ i + d + 1 < i + 1 + vs.length) ↔
          (i ≤ i + d + 1 ∧ i + d + 1 < i + (v :: vs).length) := by
        simp only [List.length_cons]; omega
      simp only [h1, h2, h3, h4, if_false, List.getElem?_cons_succ]

/-- After havoc, indices below the capacity hold a draw each, and every other byte is as before. -/
theorem Memory.read_havoc (n cap j : Nat) (m : Memory) :
    (Memory.havoc n cap m).read j = if j < cap then some (Config.freeObufByte n j) else m.read j := by
  induction cap with
  | zero => simp [Memory.havoc]
  | succ i ih =>
    rw [Memory.havoc, Memory.read_write, ih]
    rcases lt_trichotomy j i with h | h | h
    · have h1 : j ≠ i := by omega
      have h2 : j < i + 1 := by omega
      simp only [h1, h, h2, if_true, if_false]
    · subst h; simp
    · have h1 : j ≠ i := by omega
      have h2 : ¬ j < i := by omega
      have h3 : ¬ j < i + 1 := by omega
      simp only [h1, h2, h3, if_false]

/-! ### The canonical form -/

@[simp] theorem Memory.wf_nil : Memory.wf [] := List.Pairwise.nil

/-- The indices after a write: the one written and those there before. -/
theorem Memory.mem_keys_write (m : Memory) (i : Nat) (v : Byte) (a : Nat) :
    a ∈ (m.write i v).map Prod.fst → a = i ∨ a ∈ m.map Prod.fst := by
  induction m with
  | nil => simp [Memory.write]
  | cons c m ih =>
    obtain ⟨k, x⟩ := c
    by_cases h1 : i < k
    · simp [Memory.write, h1]
    · by_cases h2 : i = k
      · subst h2; simp [Memory.write]
      · simp only [Memory.write, h1, h2, if_false, List.map_cons, List.mem_cons]
        rintro (h | h)
        · exact .inr (.inl h)
        · rcases ih h with h | h
          · exact .inl h
          · exact .inr (.inr h)

/-- A write keeps the canonical form. -/
theorem Memory.wf_write {m : Memory} (h : m.wf) (i : Nat) (v : Byte) : (m.write i v).wf := by
  induction m with
  | nil => simp [Memory.wf, Memory.write]
  | cons c m ih =>
    obtain ⟨k, x⟩ := c
    have hk : ∀ a ∈ m.map Prod.fst, k < a := (List.pairwise_cons.mp h).1
    have hm : Memory.wf m := (List.pairwise_cons.mp h).2
    by_cases h1 : i < k
    · simp only [Memory.write, h1, if_true]
      refine List.pairwise_cons.mpr ⟨?_, h⟩
      intro a ha
      rcases List.mem_cons.mp ha with rfl | ha
      · exact h1
      · exact lt_trans h1 (hk a ha)
    · by_cases h2 : i = k
      · subst h2
        simp only [Memory.write, lt_irrefl, if_true, if_false]
        exact List.pairwise_cons.mpr ⟨hk, hm⟩
      · simp only [Memory.write, h1, h2, if_false]
        refine List.pairwise_cons.mpr ⟨?_, ih hm⟩
        intro a ha
        rcases Memory.mem_keys_write m i v a ha with rfl | ha
        · show k < a
          omega
        · exact hk a ha

theorem Memory.wf_writeBytes {m : Memory} (h : m.wf) (i : Nat) (vs : List Byte) : (m.writeBytes i vs).wf := by
  induction vs generalizing m i with
  | nil => exact h
  | cons v vs ih => exact ih (Memory.wf_write h i v) (i + 1)

theorem Memory.wf_havoc {m : Memory} (h : m.wf) (n cap : Nat) : (Memory.havoc n cap m).wf := by
  induction cap with
  | zero => exact h
  | succ i ih => exact Memory.wf_write ih i _

/-! ### The Parser's registers -/

@[simp] theorem Parser.store_pos (i j : Pos) (b : Byte) (p : Parser) : (p.store i j b).pos = j := rfl

@[simp] theorem Parser.store_buf (i j : Pos) (b : Byte) (p : Parser) : (p.store i j b).buf = p.buf.set i b := rfl

@[simp] theorem Parser.discarded_pos (n : Nat) : (Parser.discarded n).pos = 0 := rfl

/-- A Parser in AwaitStart meets its invariant whatever its slots hold. -/
theorem Parser.inv_of_start {p : Parser} (h : p.pos = 0) : p.Inv := by
  simp [Parser.Inv, h]

@[simp] theorem posOfRegister_registerOfPos (p : Pos) : posOfRegister (registerOfPos p) = p := by
  revert p; decide

end Sys2Proof.Machine
end

