-- ==== Sys2Proof/Laws/ParserUnit.lean ====
section
/-! SUPPORT. What one PROCESS_BYTE can do to the Parser: the arm of each position, and one inversion lemma. -/

namespace Sys2Proof.Machine

variable (t : CommandTable) (n : Nat) (b : Byte) {p : Parser}

theorem processByte_awaitStart (h : p.pos = 0) : p.processByte t n b = awaitStart b p := by
  simp [Parser.processByte, h, AwaitState.ofPos]

theorem processByte_awaitVersion (h : p.pos = 1) : p.processByte t n b = awaitVersion n b p := by
  simp [Parser.processByte, h, AwaitState.ofPos]

theorem processByte_awaitLength (h : p.pos = 2) : p.processByte t n b = awaitLength n b p := by
  simp [Parser.processByte, h, AwaitState.ofPos]

/-- The six states without a check buffer the byte and advance (R104 to R109). -/
theorem processByte_data (h3 : 3 ≤ p.pos.val) (h9 : p.pos.val < 9) :
    p.processByte t n b = (p.store p.pos ⟨p.pos.val + 1, by omega⟩ b, .incomplete) := by
  obtain ⟨⟨k, hk⟩, buf⟩ := p
  simp only at h3 h9
  interval_cases k <;> rfl

theorem processByte_awaitEnd (h : p.pos = 9) : p.processByte t n b = awaitEnd t n b p := by
  simp [Parser.processByte, h, AwaitState.ofPos]

/-- What AwaitEnd can do: the Parser is always discarded, and the result is the first check that fails (R110). -/
theorem awaitEnd_cases (p : Parser) :
    (awaitEnd t n b p).1 = Parser.discarded n ∧
    ((awaitEnd t n b p).2 = .error .checksumMismatch ∧
        frameChecksum (p.candidate b) ≠ neg16 (frameSum (p.candidate b)) ∨
      (awaitEnd t n b p).2 = .error .framingError ∧
        frameChecksum (p.candidate b) = neg16 (frameSum (p.candidate b)) ∧ b ≠ Config.endMarker ∨
      (awaitEnd t n b p).2 = .complete (decodeMessage t (p.candidate b).code (frameParam (p.candidate b))) ∧
        frameChecksum (p.candidate b) = neg16 (frameSum (p.candidate b)) ∧ b = Config.endMarker) := by
  by_cases h1 : frameChecksum (p.candidate b) = neg16 (frameSum (p.candidate b))
  · by_cases h2 : b = Config.endMarker
    · simp_all [awaitEnd, frameChecksum, frameSum, frameParam, Parser.candidate]
    · simp_all [awaitEnd, frameChecksum, frameSum, Parser.candidate]
  · simp_all [awaitEnd, frameChecksum, frameSum, Parser.candidate]

/-- Everything one PROCESS_BYTE can do: discard a byte in AwaitStart, buffer a byte and advance, report a framing error
at offset 1 or 2, or end the frame. -/
theorem processByte_cases (p : Parser) :
    p.pos = 0 ∧ b ≠ Config.startMarker ∧ p.processByte t n b = (p, .incomplete) ∨
    (∃ h : p.pos.val < 9, (p.pos = 0 → b = Config.startMarker) ∧ (p.pos = 1 → b = Config.version) ∧
      (p.pos = 2 → b = Config.lengthByte) ∧
      p.processByte t n b = (p.store p.pos ⟨p.pos.val + 1, by omega⟩ b, .incomplete)) ∨
    (p.pos = 1 ∧ b ≠ Config.version ∨ p.pos = 2 ∧ b ≠ Config.lengthByte) ∧
      p.processByte t n b = (Parser.discarded n, .error .framingError) ∨
    p.pos = 9 ∧ p.processByte t n b = awaitEnd t n b p := by
  by_cases h0 : p.pos = 0
  · rw [processByte_awaitStart t n b h0]
    by_cases hb : b = Config.startMarker
    · exact .inr (.inl ⟨by simp [h0], by simp [hb], by simp [h0], by simp [h0],
        by simp [awaitStart, hb, h0]⟩)
    · exact .inl ⟨h0, hb, by simp [awaitStart, hb]⟩
  by_cases h1 : p.pos = 1
  · rw [processByte_awaitVersion t n b h1]
    by_cases hb : b = Config.version
    · exact .inr (.inl ⟨by simp [h1], by simp [h1], by simp [hb], by simp [h1],
        by simp [awaitVersion, hb, h1]⟩)
    · exact .inr (.inr (.inl ⟨.inl ⟨h1, hb⟩, by simp [awaitVersion, hb]⟩))
  by_cases h2 : p.pos = 2
  · rw [processByte_awaitLength t n b h2]
    by_cases hb : b = Config.lengthByte
    · exact .inr (.inl ⟨by simp [h2], by simp [h2], by simp [h2], by simp [hb],
        by simp [awaitLength, hb, h2]⟩)
    · exact .inr (.inr (.inl ⟨.inr ⟨h2, hb⟩, by simp [awaitLength, hb]⟩))
  by_cases h9 : p.pos = 9
  · exact .inr (.inr (.inr ⟨h9, processByte_awaitEnd t n b h9⟩))
  · have h3 : 3 ≤ p.pos.val := by
      simp only [Fin.ext_iff] at h0 h1 h2
      simp at h0 h1 h2
      omega
    have h8 : p.pos.val < 9 := by
      simp only [Fin.ext_iff] at h9
      simp at h9
      omega
    exact .inr (.inl ⟨h8, fun h => absurd h h0, fun h => absurd h h1, fun h => absurd h h2,
      processByte_data t n b h3 h8⟩)

end Sys2Proof.Machine
end

