-- ==== Sys2Proof/Laws/HostOps.lean ====
section
/-! SUPPORT. What one clock edge and each meaning leave in every field of the state. -/

namespace Sys2Proof.Machine

variable (s : State) (pins : Pins)

@[simp] theorem State.edge_parser :
    (s.edge pins).parser = (parserEdge Config.commands s.draws pins s.parser).1 := rfl

@[simp] theorem State.edge_parserOut :
    (s.edge pins).parserOut = (parserEdge Config.commands s.draws pins s.parser).2 := rfl

@[simp] theorem State.edge_encoderOut : (s.edge pins).encoderOut = encoderEdge s.draws pins := rfl

@[simp] theorem State.edge_obuf : (s.edge pins).obuf = s.obuf := rfl

@[simp] theorem State.edge_cap : (s.edge pins).cap = s.cap := rfl

@[simp] theorem State.edge_pending : (s.edge pins).pending = s.pending := rfl

@[simp] theorem State.edge_results : (s.edge pins).results = s.results := rfl

@[simp] theorem State.edge_draws : (s.edge pins).draws = s.draws + 1 := rfl

/-! ### Strobes -/

@[simp] theorem ParserOutputs.quiet_resValid (n : Nat) : (ParserOutputs.quiet n).resValid = false := rfl

@[simp] theorem EncoderOutputs.quiet_encDone (n : Nat) : (EncoderOutputs.quiet n).encDone = false := rfl

/-- The Parser's outputs for a result always show one, and never the reserved kind (R75, U6). -/
theorem ParserOutputs.ofResult_shows (n : Nat) (code : Byte) (param : Word16) (r : ParseResult) :
    (ParserOutputs.ofResult n code param r).resValid = true ∧
      (ParserOutputs.ofResult n code param r).resKind ≠ 0b11 := by
  rcases r with _ | ⟨⟨_, _⟩ | ⟨_⟩⟩ | ⟨_ | _⟩ <;> exact ⟨rfl, by simp [ParserOutputs.ofResult]⟩

/-- The Encoder's outputs for a result always show one, and a Host reads that result back. -/
theorem EncoderOutputs.read_ofResult (n : Nat) (f : Frame) (cap : Nat) :
    (EncoderOutputs.ofResult n f (serResult cap)).encDone = true ∧
      (EncoderOutputs.ofResult n f (serResult cap)).read = [.serialize (serResult cap)] := by
  unfold serResult
  split <;> exact ⟨rfl, rfl⟩

/-! ### The two units at the edges the operations take -/

variable (t : CommandTable) (n : Nat) (p : Parser)

@[simp] theorem parserEdge_idle : parserEdge t n Pins.idle p = (p, ParserOutputs.quiet n) := rfl

@[simp] theorem parserEdge_request (code : Byte) (param : Word16) (cap : Nat) :
    parserEdge t n (Pins.request code param cap) p = (p, ParserOutputs.quiet n) := rfl

@[simp] theorem parserEdge_clearing :
    parserEdge t n Pins.clearing p = (Parser.discarded n, ParserOutputs.quiet n) := rfl

@[simp] theorem parserEdge_offer (b : Byte) :
    parserEdge t n (Pins.offer b) p = ((p.processByte t n b).1,
      ParserOutputs.ofResult n p.buf[3] (wordOfBytes p.buf[5] p.buf[6]) (p.processByte t n b).2) := rfl

@[simp] theorem encoderEdge_idle : encoderEdge n Pins.idle = EncoderOutputs.quiet n := rfl

@[simp] theorem encoderEdge_offer (b : Byte) : encoderEdge n (Pins.offer b) = EncoderOutputs.quiet n := rfl

@[simp] theorem encoderEdge_clearing : encoderEdge n Pins.clearing = EncoderOutputs.quiet n := rfl

/-! ### Offering bytes -/

@[simp] theorem offer_parser (b : Byte) :
    (offer b s).1.parser = (s.parser.processByte Config.commands s.draws b).1 := rfl

@[simp] theorem offer_obuf (b : Byte) : (offer b s).1.obuf = s.obuf := rfl

@[simp] theorem offer_cap (b : Byte) : (offer b s).1.cap = s.cap := rfl

@[simp] theorem offer_pending (b : Byte) : (offer b s).1.pending = s.pending := rfl

@[simp] theorem offerAll_nil : offerAll [] s = (s, []) := rfl

theorem offerAll_cons (b : Byte) (bs : List Byte) :
    offerAll (b :: bs) s = ((offerAll bs (offer b s).1).1, (offer b s).2 :: (offerAll bs (offer b s).1).2) := rfl

/-- Offering bytes touches nothing but the Parser, the outputs and the draw counter. -/
theorem offerAll_frame (bs : List Byte) :
    (offerAll bs s).1.obuf = s.obuf ∧ (offerAll bs s).1.cap = s.cap ∧ (offerAll bs s).1.pending = s.pending ∧
      (offerAll bs s).2.length = bs.length := by
  induction bs generalizing s with
  | nil => simp
  | cons b bs ih =>
    obtain ⟨h1, h2, h3, h4⟩ := ih (offer b s).1
    simp [offerAll_cons, h1, h2, h3, h4]

end Sys2Proof.Machine
end

