-- ==== Sys2Proof/Laws/PerInstr.lean ====
section
/-! SUPPORT. Statements made for every instruction, one lemma per constructor. -/

/-- The encoding of a well-formed instruction carries the fixed bits of its row of spec/opcode_table.json, its `match`
under its `mask`. -/
def Sys2Proof.Laws.RowPattern.Statement (i : Sys2Proof.Instr) : Prop :=
  i.wellFormed = true →
  match i with
  | .idle _ => ∃ w : Sys2Proof.HostopWord, Sys2Proof.encode i = .hostop w ∧ w &&& 0x0000003 = 0x0000000
  | .processByte _ _ => ∃ w : Sys2Proof.HostopWord, Sys2Proof.encode i = .hostop w ∧ w &&& 0x0000003 = 0x0000001
  | .serialize _ _ => ∃ w : Sys2Proof.HostopWord, Sys2Proof.encode i = .hostop w ∧ w &&& 0x0000003 = 0x0000002
  | .clear _ => ∃ w : Sys2Proof.HostopWord, Sys2Proof.encode i = .hostop w ∧ w &&& 0x0000003 = 0x0000003
  | .frame _ => ∃ w : Sys2Proof.FrameWord,
      Sys2Proof.encode i = .frame w ∧ w &&& 0xFFFFFF000000000000FF = 0x7EFF06000000000000EF

namespace Sys2Proof.Laws.RowPattern

/-- A word made of three fields carries its `op` under the mask. -/
theorem ofFields_masked (p16 : Word16) (d8 : Byte) (op : BitVec 2) :
    ((HostopWord.ofFields p16 d8 op) &&& 0x0000003 : HostopWord).toNat = op.toNat := by
  rw [HostopWord.and_three, HostopWord.toNat_op, HostopWord.toNat_ofFields]
  omega

/-- A word made of `op` and the bits above it carries its `op` under the mask. -/
theorem ofRest_masked (rest : BitVec 24) (op : BitVec 2) :
    ((HostopWord.ofRest rest op) &&& 0x0000003 : HostopWord).toNat = op.toNat := by
  rw [HostopWord.and_three, HostopWord.toNat_op, HostopWord.toNat_ofRest]
  omega

theorem idle (ignored : BitVec 24) : Statement (.idle ignored) := fun _ =>
  ⟨_, rfl, BitVec.eq_of_toNat_eq (ofRest_masked ignored 0b00#2)⟩

theorem processByte (b : Byte) (ignored : BitVec 16) : Statement (.processByte b ignored) := fun _ =>
  ⟨_, rfl, BitVec.eq_of_toNat_eq (ofFields_masked ignored b 0b01#2)⟩

theorem serialize (code : Byte) (param : Word16) : Statement (.serialize code param) := fun _ =>
  ⟨_, rfl, BitVec.eq_of_toNat_eq (ofFields_masked param code 0b10#2)⟩

theorem clear (ignored : BitVec 24) : Statement (.clear ignored) := fun _ =>
  ⟨_, rfl, BitVec.eq_of_toNat_eq (ofRest_masked ignored 0b11#2)⟩

/-- The mask keeps offsets 0, 1, 2 and 9 of a frame word and clears the others. -/
theorem masked (f : Frame) : Frame.ofWord (f.toWord &&& frameMask) =
    ⟨f.start, f.version, f.length, 0, 0, 0, 0, 0, 0, f.endMark⟩ := by
  have keep : ∀ b : Byte, b &&& 255 = b := by decide
  have drop : ∀ b : Byte, b &&& 0 = 0 := by decide
  have hf := Frame.ofWord_toWord f
  have hm : Frame.ofWord frameMask = ⟨255, 255, 255, 0, 0, 0, 0, 0, 0, 255⟩ := by decide
  obtain ⟨b0, b1, b2, b3, b4, b5, b6, b7, b8, b9⟩ := f
  simp only [Frame.ofWord, Frame.mk.injEq] at hf hm
  simp only [Frame.ofWord, FrameWord.byteAt_and, hf, hm, keep, drop]

theorem frame (f : Frame) : Statement (.frame f) := by
  intro h
  refine ⟨f.toWord, rfl, FrameWord.eq_of_bytes ((masked f).trans ?_)⟩
  simp only [Instr.wellFormed, Frame.structural, Bool.and_eq_true, beq_iff_eq] at h
  obtain ⟨⟨⟨h0, h1⟩, h2⟩, h9⟩ := h
  rw [h0, h1, h2, h9]
  decide

end Sys2Proof.Laws.RowPattern
end

