-- ==== Sys2Proof/Laws/Step.lean ====
section
/-! SUPPORT. Everything a step can do, and that what it writes to `obuf` keeps the canonical form. -/

namespace Sys2Proof.Machine

/-- If a step answers a next state, it waited, ran an operation, took an edge, copied a frame or read the outputs. -/
theorem step_cases {s t : State} (h : step s = .next t) :
    s.pending = [] ∧ t = s ∨
    (∃ word cap rest i, s.pending = .op word cap :: rest ∧ decode word = .ok i ∧
      exec i ((s.setPending rest).setCap cap) = .next t) ∨
    (∃ pins rest, s.pending = .edge pins :: rest ∧ t =
      (((s.setPending rest).edge pins).setCap (some (requestedCap pins s.cap))).setResults []) ∨
    (∃ rest, s.pending = .copyFrame :: rest ∧ runCopyFrame (s.setPending rest) = .next t) ∨
    (∃ rest rs, s.pending = .sample :: rest ∧ t = (s.setPending rest).setResults rs) := by
  unfold step at h
  split at h
  · next hp => exact .inl ⟨hp, by cases h; rfl⟩
  · next word cap rest hp =>
    split at h
    · next i hd => exact .inr (.inl ⟨word, cap, rest, i, hp, hd, h⟩)
    · cases h
  · next pins rest hp => exact .inr (.inr (.inl ⟨pins, rest, hp, by cases h; rfl⟩))
  · next rest hp => exact .inr (.inr (.inr (.inl ⟨rest, hp, h⟩)))
  · next rest hp =>
    unfold runSample at h
    split at h
    · next rs hr => exact .inr (.inr (.inr (.inr ⟨rest, _, hp, by cases h; rfl⟩)))
    · cases h

/-- Everything the Host's copy can do: nothing without a result on the ports, the frame, or after an error the too small
buffer unspecified. -/
theorem runCopyFrame_cases {s t : State} (h : runCopyFrame s = .next t) :
    s.encoderOut.encDone = false ∧ t = s.setResults [] ∨
    s.encoderOut.encDone = true ∧ s.encoderOut.encStatus = false ∧
      t = (s.setObuf (s.obuf.writeBytes 0 (Frame.ofWord s.encoderOut.encFrame).bytes)).setResults [] ∨
    s.encoderOut.encDone = true ∧ s.encoderOut.encStatus = true ∧
      t = ((s.setObuf (s.obuf.havoc s.draws s.cap)).nextDraw).setResults [] := by
  unfold runCopyFrame at h
  cases h
  cases hd : s.encoderOut.encDone <;> cases hs : s.encoderOut.encStatus <;> simp

/-! ### The capacity -/

theorem toNat_portCap (cap : Nat) : (portCap cap).toNat = min cap 65535 := by
  simp only [portCap, BitVec.toNat_ofNat]
  omega

@[simp] theorem portCap_toNat (w : Word16) : portCap w.toNat = w := by
  apply BitVec.eq_of_toNat_eq
  rw [toNat_portCap]
  omega

/-- An edge that takes a request leaves a capacity that the port shows as presented. -/
theorem portCap_requestedCap {pins : Pins} (hq : pins.encReq = true) (hr : pins.rst = false) (cap : Nat) :
    portCap (requestedCap pins cap) = pins.encCap := by
  by_cases h : pins.encCap = portCap cap <;> simp [requestedCap, hq, hr, h]

/-- An edge that takes no request gives no buffer. -/
theorem requestedCap_of_no_request {pins : Pins} (h : pins.encReq = false ∨ pins.rst = true) (cap : Nat) :
    requestedCap pins cap = cap := by
  rcases h with h | h <;> simp [requestedCap, h]

/-- Presenting the capacity that stands already changes nothing. -/
@[simp] theorem requestedCap_request (code : Byte) (param : Word16) (cap : Nat) :
    requestedCap (Pins.request code param cap) cap = cap := by
  simp [requestedCap, Pins.request]

/-- What SERIALIZE does to `obuf` keeps the canonical form. -/
theorem wf_serializeInto {m : Memory} (h : m.wf) (n : Nat) (code : Byte) (param : Word16) (cap : Nat) :
    (serializeInto n code param cap m).wf := by
  unfold serializeInto
  split
  · exact Memory.wf_havoc h n cap
  · exact Memory.wf_writeBytes h 0 _

end Sys2Proof.Machine
end

