-- ==== Sys2Proof/Laws/Stream.lean ====
section
/-! SUPPORT. PROCESS_BYTE as an operation of the Host, and sequences of it. -/

namespace Sys2Proof.Machine

/-- The state one PROCESS_BYTE leaves. -/
def afterByte (b : Byte) (s : State) : State := (offer b s).1.setResults [.parse (offer b s).2]

theorem exec_processByte (b : Byte) (x : BitVec 16) (s : State) :
    exec (.processByte b x) s = .next (afterByte b s) := rfl

@[simp] theorem afterByte_parser (b : Byte) (s : State) :
    (afterByte b s).parser = (s.parser.processByte Config.commands s.draws b).1 := rfl

@[simp] theorem afterByte_results (b : Byte) (s : State) :
    (afterByte b s).results = [.parse (s.parser.processByte Config.commands s.draws b).2] := rfl

@[simp] theorem afterByte_draws (b : Byte) (s : State) : (afterByte b s).draws = s.draws + 1 := rfl

@[simp] theorem afterByte_obuf (b : Byte) (s : State) : (afterByte b s).obuf = s.obuf := rfl

@[simp] theorem processAll_nil (s : State) : processAll [] s = some (s, []) := rfl

/-- A sequence runs its first byte and then the rest. -/
theorem processAll_cons (b : Byte) (bs : List Byte) (s : State) :
    processAll (b :: bs) s =
      (processAll bs (afterByte b s)).map fun ur => (ur.1, (afterByte b s).results ++ ur.2) := by
  rw [processAll, exec_processByte]
  cases h : processAll bs (afterByte b s) <;> simp [h]

/-- Every sequence runs to its end, one result a byte. -/
theorem processAll_some (bs : List Byte) (s : State) :
    ∃ u rs, processAll bs s = some (u, rs) ∧ rs.length = bs.length := by
  induction bs generalizing s with
  | nil => exact ⟨s, [], rfl, rfl⟩
  | cons b bs ih =>
    obtain ⟨u, rs, h, hl⟩ := ih (afterByte b s)
    exact ⟨u, (afterByte b s).results ++ rs, by simp [processAll_cons, h], by simp [hl]⟩

end Sys2Proof.Machine
end

