-- ==== Sys2Proof/Tests/Slice0.lean ====
section
/-! SUPPORT. The model's own tests: the well-formedness smoke, words written out from the spec's encodings, single steps
from the vectors of spec/95_test_vectors.md, and a witness for the hypotheses of every statement. -/

open Sys2Proof Sys2Proof.Machine

namespace Sys2Proof.Tests

/-! ### Helpers -/

/-- The state after reset with another Parser. -/
def parserAt (pos : Pos) (buf : Vector Byte 10) : State := { State.reset with parser := ⟨pos, buf⟩ }

/-- The first nine bytes of V-E1 buffered, `7E FF 06 01 00 00 01 csH csL`. -/
def nineBytes (csH csL : Byte) : State :=
  parserAt 9 #v[0x7E, 0xFF, 0x06, 0x01, 0x00, 0x00, 0x01, csH, csL, 0]

/-- The state after reset with events pending. -/
def pendingAt (es : List Event) : State := { State.reset with pending := es }

/-- What an outcome hands to the Host. -/
def resultsOf : Host.Outcome State Fault Refusal → Option (List OpResult)
  | .next s => some s.results
  | .fault _ => none
  | .refused _ => none

/-- Where an outcome leaves the Parser. -/
def posOf : Host.Outcome State Fault Refusal → Option Pos
  | .next s => some s.parser.pos
  | .fault _ => none
  | .refused _ => none

/-- The bytes an outcome leaves in `obuf` at indices below `n`. -/
def obufOf (n : Nat) : Host.Outcome State Fault Refusal → List (Option Byte)
  | .next s => (List.range n).map s.obuf.read
  | .fault _ => []
  | .refused _ => []

/-- The strobes an outcome leaves on the ports, `res_valid` and `enc_done`. -/
def strobesOf : Host.Outcome State Fault Refusal → Option (Bool × Bool)
  | .next s => some (s.parserOut.resValid, s.encoderOut.encDone)
  | .fault _ => none
  | .refused _ => none

/-- V-E1, the frame of L1-1. -/
def frameE1 : Frame := ⟨0x7E, 0xFF, 0x06, 0x01, 0x00, 0x00, 0x01, 0xFE, 0xF9, 0xEF⟩

/-- A well-formed table with two commands, for statements about every table: 0x03 with a parameter, 0x0D without. -/
def twoCommands : CommandTable where
  variants := [⟨0⟩, ⟨1⟩]
  hasParam v := v == ⟨0⟩
  lookup c := if c = 0x03 then some ⟨0⟩ else if c = 0x0D then some ⟨1⟩ else none
  closed := by
    intro c v h
    split at h
    · simp_all
    · split at h <;> simp_all
  unique := by
    intro v hv
    simp only [List.mem_cons, List.not_mem_nil, or_false] at hv
    rcases hv with rfl | rfl
    · refine ⟨0x03, by decide, fun d hd => ?_⟩
      split at hd
      · assumption
      · split at hd <;> simp at hd
    · refine ⟨0x0D, by decide, fun d hd => ?_⟩
      split at hd
      · simp at hd
      · split at hd
        · assumption
        · simp at hd

/-! ### Well-formedness: each of the four checks of R69 refuses an ill-formed frame -/

theorem test_wellFormed_frame : (Instr.frame frameE1).wellFormed = true := by decide

theorem test_illFormed_start : (Instr.frame { frameE1 with start := 0x7F }).wellFormed = false := by decide

theorem test_illFormed_version : (Instr.frame { frameE1 with version := 0x00 }).wellFormed = false := by decide

theorem test_illFormed_length : (Instr.frame { frameE1 with length := 0x07 }).wellFormed = false := by decide

theorem test_illFormed_end : (Instr.frame { frameE1 with endMark := 0x00 }).wellFormed = false := by decide

/-! ### Words written out bit by bit from R72 and R18: p16, d8, op, high bits first -/

theorem test_decode_idle : decode (.hostop 0b0000000000000000_00000000_00) = .ok (.idle 0) := by decide

theorem test_decode_idle_ignored :
    decode (.hostop 0b0001001000110100_10101011_00) = .ok (.idle 0b0001001000110100_10101011) := by decide

theorem test_decode_processByte :
    decode (.hostop 0b0000000000000000_01111110_01) = .ok (.processByte 0x7E 0) := by decide

theorem test_decode_serialize :
    decode (.hostop 0b0000101110110111_00000011_10) = .ok (.serialize 0x03 0x0BB7) := by decide

theorem test_decode_clear :
    decode (.hostop 0b1100110111101111_10101011_11) = .ok (.clear 0b1100110111101111_10101011) := by decide

theorem test_decode_frame :
    decode (.frame 0b01111110_11111111_00000110_00000001_01011010_00000000_00000001_11111110_10011111_11101111) =
      .ok (.frame ⟨0x7E, 0xFF, 0x06, 0x01, 0x5A, 0x00, 0x01, 0xFE, 0x9F, 0xEF⟩) := by decide

theorem test_decode_notAFrame :
    decode (.frame 0x7EFF0701000001FEF9EF) = .error (.notAFrame 0x7EFF0701000001FEF9EF) := by decide

theorem test_tableWord_frame : decodeTableWord 80 0x7EFF0601000001FEF9EF = some (.frame frameE1) := by decide

theorem test_tableWord_short : decodeTableWord 8 2 = some (.serialize 0 0) := by decide

theorem test_tableWord_too_wide : decodeTableWord 32 (2 ^ 26) = none := by decide

theorem test_encode_W5 : encode (.serialize 0x03 0x0BB7) = .hostop 0x02EDC0E := by decide

theorem test_encode_F1 : encode (.frame frameE1) = .frame 0x7EFF0601000001FEF9EF := by decide

/-! ### Single steps -/

theorem test_first_step_idle : resultsOf (step (State.reset.withFetchWord 32 0)) = some [] := by decide

/-- V-C1 (L1-1) and V-C2. -/
theorem test_checksum_next : checksum 0xFF 0x06 0x01 0x00 0x00 0x01 = 0xFEF9 := by decide

theorem test_checksum_zero : checksum 0 0 0 0 0 0 = 0 := by decide

/-- V-P17: both wrong, the checksum is reported. -/
theorem test_checksum_before_end :
    resultsOf (exec (.processByte 0x00 0) (nineBytes 0xFE 0x00)) = some [.parse (.error .checksumMismatch)] := by
  decide

/-- V-P13: accepted. -/
theorem test_accept :
    resultsOf (exec (.processByte 0xEF 0) (nineBytes 0xFE 0xF9)) =
      some [.parse (.complete (decodeMessage Config.commands 0x01 0x0001))] := rfl

/-- V-E4: a two-byte parameter. -/
theorem test_serialize_E4 :
    obufOf 11 (exec (.serialize 0x03 0x0BB7) State.reset) =
      [some 0x7E, some 0xFF, some 0x06, some 0x03, some 0x00, some 0x0B, some 0xB7, some 0xFE, some 0x36, some 0xEF,
        none] := by decide

/-- V-E12: one byte short. -/
theorem test_serialize_E12 :
    resultsOf (exec (.serialize 0x01 0x0001) { State.reset with cap := 9 }) =
      some [.serialize (.err .bufferTooSmall)] := by decide

/-- V-X1: CLEAR in the middle of a frame. -/
theorem test_clear :
    posOf (exec (.clear 0) (parserAt 4 #v[0x7E, 0xFF, 0x06, 0x01, 0, 0, 0, 0, 0, 0])) = some 0 := by decide

/-- L1-4 as one FRAME: nine times Incomplete, then the mismatch. -/
theorem test_frame_tampered :
    resultsOf (exec (.frame { frameE1 with checksumLow := 0xF8 }) State.reset) =
      some (List.replicate 9 (.parse .incomplete) ++ [.parse (.error .checksumMismatch)]) := by decide

/-- L1-2 as one FRAME. -/
theorem test_frame_accept :
    resultsOf (exec (.frame frameE1) State.reset) = some (List.replicate 9 (.parse .incomplete) ++
      [.parse (.complete (decodeMessage Config.commands 0x01 0x0001))]) := rfl

/-- V-S edge 3: `clear` drops the byte offered with it. -/
theorem test_edge_clear_drops_byte :
    posOf (step { parserAt 1 #v[0x7E, 0, 0, 0, 0, 0, 0, 0, 0, 0] with
      pending := [.edge { Pins.offer 0xFF with clear := true }] }) = some 0 := by decide

/-- V-S edge 5: both units at one edge. -/
theorem test_edge_both_units :
    strobesOf (step (pendingAt [.edge { Pins.request 0x01 0x0001 10 with inValid := true, inByte := 0x7E }])) =
      some (true, true) := by decide

/-- V-S edge 6: `rst` drops everything. -/
theorem test_edge_reset :
    strobesOf (step (pendingAt [.edge { Pins.request 0x01 0x0001 10 with rst := true, inValid := true }])) =
      some (false, false) := by decide

/-- U1 at signal level: the copy after BufferTooSmall leaves each byte of a two-byte buffer unspecified, and none beyond. -/
theorem test_copy_after_error :
    obufOf 3 (step { pendingAt [.copyFrame] with
      cap := 2, obuf := [(0, 0xAA), (2, 0xBB)], encoderOut := ⟨true, true, 0, 0⟩ }) =
      [some (Config.freeObufByte 0 0), some (Config.freeObufByte 0 1), some 0xBB] := rfl

/-! ### Witnesses: the hypotheses of the statements can be met, clause by clause -/

theorem witness_HostopFieldsChooseOperation :
    (0x0000000 : HostopWord).toNat % 4 = 0 ∧ (0x048D3FD : HostopWord).toNat % 4 = 1 ∧
      (0x3FFFFFE : HostopWord).toNat % 4 = 2 ∧ (0x337BEAF : HostopWord).toNat % 4 = 3 := by decide

theorem witness_DecodeEncodeRoundTrip : (Instr.frame frameE1).wellFormed = true := by decide

theorem witness_EncodeDecodeRoundTrip :
    decode (.frame 0x7EFF0601000001FEF9EF) = .ok (.frame frameE1) := by decide

theorem witness_StepRunsDecodedInstruction :
    (pendingAt [.op (.hostop 0x1F9) (some 10)]).pending = .op (.hostop 0x1F9) (some 10) :: [] ∧
      decode (.hostop 0x1F9) = .ok (.processByte 0x7E 0) ∧
      decodeTableWord 32 0x1F9 = some (.processByte 0x7E 0) := by decide

theorem witness_AwaitStartArm :
    (parserAt 0 (.replicate 10 0)).parser.pos = 0 ∧ (0x7E : Byte) = 0x7E ∧ (0x00 : Byte) ≠ 0x7E := by decide

theorem witness_AwaitVersionArm :
    (parserAt 1 (.replicate 10 0)).parser.pos = 1 ∧ (0xFF : Byte) = 0xFF ∧ (0x7E : Byte) ≠ 0xFF := by decide

theorem witness_AwaitLengthArm :
    (parserAt 2 (.replicate 10 0)).parser.pos = 2 ∧ (0x06 : Byte) = 0x06 ∧ (0x7E : Byte) ≠ 0x06 := by decide

theorem witness_DataArmsBufferAndAdvance :
    3 ≤ (parserAt 3 (.replicate 10 0)).parser.pos.val ∧ (parserAt 3 (.replicate 10 0)).parser.pos.val ≤ 8 ∧
      3 ≤ (parserAt 8 (.replicate 10 0)).parser.pos.val ∧ (parserAt 8 (.replicate 10 0)).parser.pos.val ≤ 8 := by
  decide

theorem witness_AwaitEndArm :
    (nineBytes 0xFE 0xF9).parser.pos = 9 ∧ (nineBytes 0xFE 0xF9).parser.Agrees ∧
      ¬ (nineBytes 0xFE 0xF8).parser.Agrees ∧ (0x00 : Byte) ≠ 0xEF := by
  unfold Parser.Agrees; decide

theorem witness_OffendingByteConsumed :
    ∃ t, exec (.processByte 0x00 0) (parserAt 1 (.replicate 10 0)) = .next t ∧
      t.results = [.parse (.error .framingError)] := ⟨_, rfl, by decide⟩

theorem witness_UnknownCodeIsNoError :
    (nineBytes 0xFE 0xF9).parser.pos = 9 ∧ (nineBytes 0xFE 0xF9).parser.Agrees ∧
      twoCommands.lookup (nineBytes 0xFE 0xF9).parser.buf[3] = none := by
  unfold Parser.Agrees; decide

theorem witness_CompleteExactlyOnValidFrame :
    (nineBytes 0xFE 0xF9).parser.Inv ∧ (nineBytes 0xFE 0xF9).parser.pos = 9 ∧
      frameValid ((nineBytes 0xFE 0xF9).parser.candidate 0xEF) = true ∧
      State.reset.parser.pos = 0 ∧ frameE1.bytes ≠ [] := by
  unfold Parser.Inv; decide

theorem witness_RoundTripOfACommand :
    State.reset.parser.pos = 0 ∧ 10 ≤ State.reset.cap ∧ (⟨0⟩ : Variant) ∈ twoCommands.variants := by decide

theorem witness_PosReturnsOrAdvances :
    resultsOf (exec (.processByte 0x00 0) (nineBytes 0xFE 0xF9)) = some [.parse (.error .framingError)] ∧
      resultsOf (exec (.processByte 0x00 0) State.reset) = some [.parse .incomplete] := by decide

theorem witness_StrayStartLosesFrame : State.reset.parser.pos = 0 ∧ frameValid frameE1 = true := by decide

theorem witness_GarbageBeforeFrameDiscarded :
    State.reset.parser.pos = 0 ∧ (0x7E : Byte) ∉ ([0x00, 0xFF, 0xEF] : List Byte) ∧ frameValid frameE1 = true := by
  decide

theorem witness_SlotsBeyondPosUnobservable :
    (parserAt 1 #v[0x7E, 0, 0, 0, 0, 0, 0, 0, 0, 0]).parser.Same
      (parserAt 1 #v[0x7E, 1, 2, 3, 4, 5, 6, 7, 8, 9]).parser := by
  unfold Parser.Same; decide

theorem witness_RunningSumEqualsAcc :
    State.reset.parser.pos.val ≤ 1 ∧
      ((parserAt 6 (.replicate 10 1)).parser.processByte twoCommands 0 5).1.pos.val =
        (parserAt 6 (.replicate 10 1)).parser.pos.val + 1 ∧
      (nineBytes 0xFE 0xF9).parser.pos = 9 := by decide

theorem witness_PosRegisterEncoding : 10 ≤ (10 : BitVec 4).toNat ∧ 10 ≤ (15 : BitVec 4).toNat := by decide

theorem witness_SerializeWritesFrame :
    10 ≤ State.reset.cap ∧ { State.reset with cap := 9 }.cap < 10 ∧ { State.reset with cap := 0 }.cap ≤ 9 := by decide

theorem witness_BufferTooSmallIsRecoverable : { State.reset with cap := 9 }.cap ≤ 9 ∧ 10 ≤ 10 := by decide

theorem witness_FeedbackByteAlwaysZero : 10 ≤ State.reset.cap := by decide

theorem witness_EncoderIsPure : 10 ≤ State.reset.cap ∧ 10 ≤ { State.reset with cap := 12 }.cap := by decide

theorem witness_LoopRunsThroughStep :
    (pendingAt (asmLOOP 0x03 0x0BB7)).parser.pos = 0 ∧
      (pendingAt (asmLOOP 0x03 0x0BB7)).pending = asmLOOP 0x03 0x0BB7 ++ [] := by decide

theorem witness_ClearDiscardsCandidate : State.reset.parser.pos = 0 ∧ frameValid frameE1 = true := by decide

theorem witness_FrameMeetsParserInAwaitStart :
    State.reset.parser.pos = 0 ∧ (Instr.frame { frameE1 with checksumLow := 0xF8 }).wellFormed = true := by decide

/-- All five results of R75 occur, the two messages under a table that knows 0x03 (V-E3) and not 0x01 (V-E1). -/
theorem witness_ResultsOnThePorts :
    (State.reset.parser.processByte twoCommands 0 0x00).2 = .incomplete ∧
      ((parserAt 9 #v[0x7E, 0xFF, 0x06, 0x03, 0x00, 0x00, 0x01, 0xFE, 0xF7, 0]).parser.processByte twoCommands 0 0xEF).2 =
        .complete (.known ⟨0⟩ 0x0001) ∧
      ((nineBytes 0xFE 0xF9).parser.processByte twoCommands 0 0xEF).2 = .complete (.unknownCommand 0x01) ∧
      ((nineBytes 0xFE 0xF9).parser.processByte twoCommands 0 0x00).2 = .error .framingError ∧
      ((nineBytes 0xFE 0xF8).parser.processByte twoCommands 0 0xEF).2 = .error .checksumMismatch ∧
      resultsOf (exec (.serialize 0x01 0x0001) State.reset) = some [.serialize (.ok 10)] ∧
      resultsOf (exec (.serialize 0x01 0x0001) { State.reset with cap := 9 }) =
        some [.serialize (.err .bufferTooSmall)] := by decide

theorem witness_ParserCycle :
    (pendingAt [.edge (Pins.offer 0x7E)]).pending = .edge (Pins.offer 0x7E) :: [] ∧
      (Pins.offer 0x7E).rst = false ∧ (Pins.offer 0x7E).clear = false ∧ (Pins.offer 0x7E).inValid = true ∧
      Pins.idle.inValid = false ∧ Pins.idle.rst = false ∧ Pins.idle.clear = false := by decide

theorem witness_ClearCycle :
    (pendingAt [.edge Pins.clearing]).pending = .edge Pins.clearing :: [] ∧ Pins.clearing.rst = false ∧
      Pins.clearing.clear = true := by decide

theorem witness_EdgePriorityAndIndependence :
    (Pins.reset.rst = { Pins.offer 0x7E with rst := true }.rst ∧ Pins.reset.rst = true) ∧
      (Pins.clearing.rst = { Pins.offer 0x7E with clear := true }.rst ∧ Pins.clearing.rst = false ∧
        Pins.clearing.clear = true ∧ { Pins.offer 0x7E with clear := true }.clear = true) ∧
      ((Pins.request 0x01 0 10).rst = Pins.idle.rst ∧ (Pins.request 0x01 0 10).clear = Pins.idle.clear ∧
        (Pins.request 0x01 0 10).inValid = Pins.idle.inValid ∧ (Pins.request 0x01 0 10).inByte = Pins.idle.inByte) ∧
      ((Pins.offer 0x7E).rst = Pins.clearing.rst ∧ (Pins.offer 0x7E).encReq = Pins.clearing.encReq ∧
        (Pins.offer 0x7E).encCode = Pins.clearing.encCode ∧ (Pins.offer 0x7E).encParam = Pins.clearing.encParam ∧
        (Pins.offer 0x7E).encCap = Pins.clearing.encCap) := by
  decide

theorem witness_EncoderCycle :
    (pendingAt [.edge (Pins.request 0x01 0x0001 9)]).pending = .edge (Pins.request 0x01 0x0001 9) :: [] ∧
      (Pins.request 0x01 0x0001 9).rst = false ∧ (Pins.request 0x01 0x0001 9).encReq = true ∧
      Pins.reset.rst = true := by decide

theorem witness_ResetEdge :
    (pendingAt [.edge Pins.reset]).pending = .edge Pins.reset :: [] ∧ Pins.reset.rst = true := by decide

theorem witness_OfferThenSampleRefinesProcessByte :
    (pendingAt [.edge (Pins.offer 0x7E), .sample]).pending = .edge (Pins.offer 0x7E) :: .sample :: [] := by decide

theorem witness_RequestThenCopyRefinesSerialize :
    (pendingAt [.edge (Pins.request 1 1 10), .copyFrame, .sample]).pending =
        .edge (Pins.request 1 1 10) :: .copyFrame :: .sample :: [] ∧
      10 ≤ (pendingAt [.edge (Pins.request 1 1 10), .copyFrame, .sample]).cap ∧
      { pendingAt [.edge (Pins.request 1 1 9), .copyFrame, .sample] with cap := 9 }.cap < 10 ∧
      { pendingAt [.edge (Pins.request 1 1 9), .copyFrame, .sample] with cap := 9 }.pending =
        .edge (Pins.request 1 1 9) :: .copyFrame :: .sample :: [] := by decide

theorem witness_OperationsAndEdgesAdvanceDrawCounter :
    (∀ f, Instr.idle 0 ≠ .frame f) ∧ (pendingAt [.edge Pins.idle]).pending = .edge Pins.idle :: [] := by
  simp [pendingAt]

theorem witness_EveryStepKeepsParsersSame :
    { parserAt 1 #v[0x7E, 0, 0, 0, 0, 0, 0, 0, 0, 0] with pending := [asmPB 0xFF] }.parser.Same
        ⟨1, #v[0x7E, 1, 2, 3, 4, 5, 6, 7, 8, 9]⟩ ∧
      ∃ t, step { parserAt 1 #v[0x7E, 0, 0, 0, 0, 0, 0, 0, 0, 0] with pending := [asmPB 0xFF] } = .next t := by
  refine ⟨?_, _, rfl⟩
  unfold Parser.Same; decide

/-- The hypotheses are met by a state that is about to copy after an error (V-S edge 7), and beyond its nine bytes. -/
theorem witness_NothingWrittenBeyondCapacity :
    ∃ s t, s.Inv ∧ step s = .next t ∧ t.cap ≤ 9 ∧ s.encoderOut.encDone = true := by
  refine ⟨{ State.reset with
    cap := 9, pending := [.copyFrame], encoderOut := ⟨true, true, 0, 0⟩ }, _, ⟨?_, ?_, ?_, ?_, ?_⟩, rfl, by decide, rfl⟩
  · unfold Parser.Inv; decide
  · unfold ParserOutputs.Inv; decide
  · unfold EncoderOutputs.Inv; decide
  · decide
  · decide

/-- A state no run reaches, in which the fault of U6 is raised. -/
theorem witness_OnlyReservedKindFaults :
    ∃ f, step { pendingAt [.sample] with
      parserOut := { State.reset.parserOut with resValid := true, resKind := 0b11 } } = .fault f := ⟨_, rfl⟩

theorem witness_OnlyItsOperationsReachAUnit :
    ∀ code param, Instr.clear 0 ≠ .serialize code param := by simp

theorem witness_OnlySerializeWritesObuf : ∀ code param, Instr.frame frameE1 ≠ .serialize code param := by simp

theorem witness_UnitsCommute : 10 ≤ State.reset.cap := by decide

theorem witness_Idempotency : 10 ≤ State.reset.cap ∧ State.reset.parser.pos = 0 := by decide

theorem witness_ResetAgreesWithClearOnParser : Pins.reset.rst = true := rfl

theorem witness_StalledFrameWaits : State.reset.pending = [] := rfl

theorem witness_ParserInvariantKept :
    (nineBytes 0xFE 0xF9).parser.Inv ∧
      ∃ t, step { nineBytes 0xFE 0xF9 with pending := [asmPB 0xEF] } = .next t := by
  refine ⟨?_, _, rfl⟩
  unfold Parser.Inv; decide

/-- The invariant can be met, by a state that a step leaves. -/
theorem witness_EveryStepKeepsInvariant :
    (pendingAt [asmSER 0x01 0x0001 10]).Inv ∧ ∃ t, step (pendingAt [asmSER 0x01 0x0001 10]) = .next t := by
  refine ⟨⟨?_, ?_, ?_, ?_, ?_⟩, _, rfl⟩
  · unfold Parser.Inv; decide
  · unfold ParserOutputs.Inv; decide
  · unfold EncoderOutputs.Inv; decide
  · decide
  · decide

theorem witness_NoFaultUnderInvariant : (pendingAt [.sample]).Inv := by
  refine ⟨?_, ?_, ?_, ?_, ?_⟩
  · unfold Parser.Inv; decide
  · unfold ParserOutputs.Inv; decide
  · unfold EncoderOutputs.Inv; decide
  · decide
  · decide

theorem witness_ValidFrameByArithmetic : frameValid frameE1 = true ∧
    frameValid { frameE1 with checksumLow := 0xF8 } = false := by decide

end Sys2Proof.Tests
end

section
/-! SUPPORT. The step of a pending operation, and a word the Host places before everything else
(spec/00_scope.md R8, spec/30_encoding.md R72). -/

namespace Sys2Proof

/-- A number of `nbits` bits is an instruction exactly when the word it is decodes. -/
theorem decodeTableWord_eq_some_iff {nbits w : Nat} {i : Instr} :
    decodeTableWord nbits w = some i ↔ decode (CodeWord.ofBits nbits w) = .ok i := by
  unfold decodeTableWord
  cases decode (CodeWord.ofBits nbits w) <;> simp

end Sys2Proof

namespace Sys2Proof.Machine

/-- The forward direction of the operation case of `step_cases`. -/
theorem step_of_pending_op {s : State} {word : CodeWord} {cap : Option Nat} {rest : List Event} {i : Instr}
    (hp : s.pending = .op word cap :: rest) (hd : decode word = .ok i) :
    step s = exec i ((s.setPending rest).setCap cap) := by
  simp only [step, hp, hd]

@[simp] theorem State.withFetchWord_pending (s : State) (nbits w : Nat) :
    (s.withFetchWord nbits w).pending = .op (CodeWord.ofBits nbits w) none :: s.pending := rfl

/-- Taking the placed word off again gives back the state it was placed in. -/
@[simp] theorem State.withFetchWord_setPending_setCap (s : State) (nbits w : Nat) :
    ((s.withFetchWord nbits w).setPending s.pending).setCap none = s := rfl

/-- A placed word runs first, in the state it was placed in. -/
theorem step_withFetchWord (s : State) {nbits w : Nat} {i : Instr}
    (hd : decode (CodeWord.ofBits nbits w) = .ok i) : step (s.withFetchWord nbits w) = exec i s := by
  rw [step_of_pending_op (s.withFetchWord_pending nbits w) hd, State.withFetchWord_setPending_setCap]

/-- Settles O7: the operation clause is `step_of_pending_op` with its two updates written as one record, the clause of the
placed word is `step_withFetchWord`. -/
theorem stepRunsDecodedInstruction : Obligations.StepRunsDecodedInstruction :=
  ⟨fun _ _ _ _ _ hp hd => step_of_pending_op hp hd,
    fun s _ _ _ hw => step_withFetchWord s (decodeTableWord_eq_some_iff.mp hw)⟩

end Sys2Proof.Machine
end

section
/-! SUPPORT. The two units at any edge (spec/30_encoding.md R77 to R80): which edge of an operation it is for the Parser,
and what the Encoder shows. -/

namespace Sys2Proof.Machine

/-- For the Parser every edge is one of three: that of CLEAR, of an offered byte or of IDLE (R79). -/
theorem parserEdge_cases (t : CommandTable) (n : Nat) (pins : Pins) :
    (∀ p, parserEdge t n pins p = parserEdge t n Pins.clearing p) ∨
    (∀ p, parserEdge t n pins p = parserEdge t n (Pins.offer pins.inByte) p) ∨
    (∀ p, parserEdge t n pins p = parserEdge t n Pins.idle p) := by
  obtain ⟨rst, inValid, inByte, clear, _, _, _, _⟩ := pins
  cases rst with
  | true => exact .inl fun _ => rfl
  | false =>
    cases clear with
    | true => exact .inl fun _ => rfl
    | false =>
      cases inValid with
      | true => exact .inr (.inl fun _ => rfl)
      | false => exact .inr (.inr fun _ => rfl)

/-- The Encoder shows no result, or that of a request the edge takes (R80). -/
theorem encoderEdge_cases (n : Nat) (pins : Pins) :
    encoderEdge n pins = EncoderOutputs.quiet n ∨
    pins.rst = false ∧ pins.encReq = true ∧ encoderEdge n pins =
      EncoderOutputs.ofResult n (buildFrame pins.encCode pins.encParam) (serResult pins.encCap.toNat) := by
  cases hr : pins.rst <;> cases hq : pins.encReq <;> simp [encoderEdge, hr, hq]

/-- The port tells a capacity below ten from the others. -/
@[simp] theorem toNat_portCap_lt_ten (cap : Nat) : (portCap cap).toNat < 10 ↔ cap < 10 := by
  rw [toNat_portCap]
  omega

/-- A frame of the Encoder is valid (R70, R89). -/
theorem frameValid_buildFrame (code : Byte) (param : Word16) : frameValid (buildFrame code param) = true := by
  have hc : frameChecksum (buildFrame code param) = neg16 (frameSum (buildFrame code param)) := wordOfBytes_bytes _
  have hs : (buildFrame code param).structural = true := by simp [Frame.structural, buildFrame]
  simp [frameValid, hc, hs]

/-- `enc_status` is 1 exactly for a capacity below ten (R75, R91). -/
@[simp] theorem EncoderOutputs.ofResult_encStatus (n : Nat) (f : Frame) (cap : Nat) :
    (EncoderOutputs.ofResult n f (serResult cap)).encStatus = true ↔ cap < 10 := by
  by_cases h : cap < 10 <;> simp [serResult, Config.frameLen, EncoderOutputs.ofResult, h]

/-- What the Encoder shows for a valid frame meets the invariant of its outputs. -/
theorem EncoderOutputs.inv_ofResult (n : Nat) {f : Frame} (hf : frameValid f = true) (cap : Nat) :
    (EncoderOutputs.ofResult n f (serResult cap)).Inv := by
  intro _
  by_cases h : cap < 10
  · simp [serResult, Config.frameLen, EncoderOutputs.ofResult, h]
  · simp [serResult, Config.frameLen, EncoderOutputs.ofResult, h, Frame.ofWord_toWord, hf]

/-- After any edge the Encoder's outputs meet their invariant. -/
theorem inv_encoderEdge (n : Nat) (pins : Pins) : (encoderEdge n pins).Inv := by
  rcases encoderEdge_cases n pins with h | ⟨-, -, h⟩ <;> rw [h]
  · simp [EncoderOutputs.Inv]
  · exact EncoderOutputs.inv_ofResult n (frameValid_buildFrame _ _) _

/-- After any edge the Parser's outputs meet their invariant. -/
theorem inv_parserEdge_out (t : CommandTable) (n : Nat) (pins : Pins) (p : Parser) :
    (parserEdge t n pins p).2.Inv := by
  rcases parserEdge_cases t n pins with h | h | h <;> rw [h]
  · simp [ParserOutputs.Inv]
  · exact fun _ => (ParserOutputs.ofResult_shows n _ _ _).2
  · simp [ParserOutputs.Inv]

end Sys2Proof.Machine
end

section
/-! SUPPORT. Every operation as bytes offered, one edge more and what the Host then holds
(spec/70_reset_and_hazards.md R163). -/

namespace Sys2Proof.Machine

/-- The last byte offered is the last edge taken. -/
theorem offerAll_concat (bs : List Byte) (b : Byte) (s : State) :
    (offerAll (bs ++ [b]) s).1 = (offerAll bs s).1.edge (Pins.offer b) := by
  induction bs generalizing s with
  | nil => rfl
  | cons c bs ih => exact ih (offer c s).1

/-- Setting `obuf` to what it holds changes nothing. -/
@[simp] theorem State.setObuf_self (s : State) : s.setObuf s.obuf = s := rfl

/-- Every operation ends in one edge, after which only `obuf` and the results change. Before it FRAME has offered its
other bytes and the others nothing. A request shows the capacity of the Host's buffer. -/
theorem exec_last_edge {i : Instr} {s t : State} (h : exec i s = .next t) :
    ∃ bs pins m rs, t = (((offerAll bs s).1.edge pins).setObuf m).setResults rs ∧
      (pins.encReq = true → pins.encCap = portCap s.cap) ∧ (s.obuf.wf → m.wf) := by
  cases i <;> obtain rfl := Host.Outcome.next.inj h
  case idle => exact ⟨[], Pins.idle, s.obuf, [], rfl, by simp [Pins.idle], id⟩
  case processByte b _ => exact ⟨[], Pins.offer b, s.obuf, _, rfl, by simp [Pins.offer, Pins.idle], id⟩
  case serialize code param =>
    exact ⟨[], Pins.request code param s.cap, _, _, rfl, fun _ => rfl, fun hm => wf_serializeInto hm _ _ _ _⟩
  case clear => exact ⟨[], Pins.clearing, s.obuf, [], rfl, by simp [Pins.clearing, Pins.idle], id⟩
  case frame f =>
    have hb : f.bytes = f.bytes.take 9 ++ [f.endMark] := rfl
    refine ⟨f.bytes.take 9, Pins.offer f.endMark, (offerAll f.bytes s).1.obuf, (offerAll f.bytes s).2.map .parse,
      ?_, ?_, ?_⟩
    · rw [← offerAll_concat, ← hb, State.setObuf_self]
    · simp [Pins.offer, Pins.idle]
    · rw [(offerAll_frame s f.bytes).1]
      exact id

end Sys2Proof.Machine
end

section
/-! SUPPORT. The Parser invariant (spec/10_state.md R24) from one byte up to one step, and O54. -/

namespace Sys2Proof.Machine

/-- Buffering at `pos` the byte that R101 to R103 ask for there keeps the Parser invariant. -/
theorem Parser.Inv.store {p : Parser} (hp : p.Inv) (h9 : p.pos.val < 9) {b : Byte}
    (h0 : p.pos = 0 → b = Config.startMarker) (h1 : p.pos = 1 → b = Config.version)
    (h2 : p.pos = 2 → b = Config.lengthByte) : (p.store p.pos ⟨p.pos.val + 1, by omega⟩ b).Inv := by
  obtain ⟨i0, i1, i2⟩ := hp
  refine ⟨fun _ => ?_, fun h => ?_, fun h => ?_⟩ <;>
    simp only [Parser.store_pos, Parser.store_buf, Vector.getElem_set] at *
  · split
    · next hk => exact h0 (Fin.ext hk)
    · next hk => exact i0 (by omega)
  · split
    · next hk => exact h1 (Fin.ext hk)
    · next hk => exact i1 (by omega)
  · split
    · next hk => exact h2 (Fin.ext hk)
    · next hk => exact i2 (by omega)

theorem Parser.Inv.processByte {p : Parser} (hp : p.Inv) (t : CommandTable) (n : Nat) (b : Byte) :
    (p.processByte t n b).1.Inv := by
  rcases processByte_cases t n b p with ⟨-, -, h⟩ | ⟨h9, h0, h1, h2, h⟩ | ⟨-, h⟩ | ⟨-, h⟩ <;> rw [h]
  · exact hp
  · exact hp.store h9 h0 h1 h2
  · exact Parser.inv_of_start rfl
  · rw [(awaitEnd_cases t n b p).1]
    exact Parser.inv_of_start rfl

theorem Parser.Inv.parserEdge {p : Parser} (hp : p.Inv) (t : CommandTable) (n : Nat) (pins : Pins) :
    (parserEdge t n pins p).1.Inv := by
  rcases parserEdge_cases t n pins with h | h | h <;> rw [h]
  · exact Parser.inv_of_start rfl
  · exact hp.processByte t n _
  · exact hp

theorem offerAll_keeps_parserInv (bs : List Byte) {s : State} (hs : s.parser.Inv) :
    (offerAll bs s).1.parser.Inv := by
  induction bs generalizing s with
  | nil => exact hs
  | cons b bs ih => exact ih (hs.processByte _ _ b)

theorem exec_keeps_parserInv {i : Instr} {s t : State} (hs : s.parser.Inv) (h : exec i s = .next t) :
    t.parser.Inv := by
  obtain ⟨bs, pins, m, rs, rfl, -, -⟩ := exec_last_edge h
  exact (offerAll_keeps_parserInv bs hs).parserEdge _ _ pins

theorem runCopyFrame_parser {s t : State} (h : runCopyFrame s = .next t) : t.parser = s.parser := by
  rcases runCopyFrame_cases h with ⟨-, rfl⟩ | ⟨-, -, rfl⟩ | ⟨-, -, rfl⟩ <;> rfl

theorem step_keeps_parserInv {s t : State} (hs : s.parser.Inv) (h : step s = .next t) : t.parser.Inv := by
  rcases step_cases h with ⟨-, rfl⟩ | ⟨_, cap, rest, _, -, -, he⟩ | ⟨pins, _, -, rfl⟩ | ⟨_, -, hc⟩ | ⟨_, _, -, rfl⟩
  · exact hs
  · exact exec_keeps_parserInv (s := (s.setPending rest).setCap cap) hs he
  · exact hs.parserEdge _ _ pins
  · rw [runCopyFrame_parser hc]
    exact hs
  · exact hs

/-- Settles O54: at reset `pos` is 0, and no edge breaks the invariant. -/
theorem parserInvariantKept : Obligations.ParserInvariantKept :=
  ⟨Parser.inv_of_start rfl, fun _ _ => step_keeps_parserInv⟩

end Sys2Proof.Machine
end

section
/-! SUPPORT. The whole invariant: at reset (spec/10_state.md R31) and over one step, O55 and O56. -/

namespace Sys2Proof.Machine

/-- Settles O56: `pos` is 0, neither unit shows a result and `obuf` is empty. -/
theorem invariantAtReset : Obligations.InvariantAtReset where
  parser := Parser.inv_of_start rfl
  parserOut := nofun
  encoderOut := nofun
  obuf := Memory.wf_nil
  capacity := nofun

theorem State.Inv.setPending {s : State} (h : s.Inv) (es : List Event) : (s.setPending es).Inv :=
  ⟨h.parser, h.parserOut, h.encoderOut, h.obuf, h.capacity⟩

theorem State.Inv.setResults {s : State} (h : s.Inv) (rs : List OpResult) : (s.setResults rs).Inv :=
  ⟨h.parser, h.parserOut, h.encoderOut, h.obuf, h.capacity⟩

theorem State.Inv.nextDraw {s : State} (h : s.Inv) : s.nextDraw.Inv :=
  ⟨h.parser, h.parserOut, h.encoderOut, h.obuf, h.capacity⟩

theorem State.Inv.setObuf {s : State} (h : s.Inv) {m : Memory} (hm : m.wf) : (s.setObuf m).Inv :=
  ⟨h.parser, h.parserOut, h.encoderOut, hm, h.capacity⟩

/-- An edge establishes the invariant of both units' outputs, whatever they showed before, for every capacity that the
port shows as a request it takes presents it. -/
theorem State.inv_edge {s : State} (hp : s.parser.Inv) (hm : s.obuf.wf) {pins : Pins} {cap : Nat}
    (hc : pins.rst = false → pins.encReq = true → pins.encCap = portCap cap) :
    ((s.edge pins).setCap (some cap)).Inv where
  parser := hp.parserEdge _ _ pins
  parserOut := inv_parserEdge_out _ _ pins _
  encoderOut := inv_encoderEdge _ pins
  obuf := hm
  capacity := by
    show (encoderEdge s.draws pins).encDone = true → ((encoderEdge s.draws pins).encStatus = true ↔ cap < 10)
    rcases encoderEdge_cases s.draws pins with h | ⟨hr, hq, h⟩
    · simp [h]
    · simp [h, hc hr hq]

/-- Every operation establishes the whole invariant from its clauses for the Parser and `obuf`. -/
theorem exec_inv {i : Instr} {s t : State} (hp : s.parser.Inv) (hm : s.obuf.wf) (h : exec i s = .next t) : t.Inv := by
  obtain ⟨bs, pins, m, rs, rfl, hc, hmw⟩ := exec_last_edge h
  obtain ⟨ho, hcap, -, -⟩ := offerAll_frame s bs
  have he : (((offerAll bs s).1.edge pins).setCap (some (offerAll bs s).1.cap)).Inv :=
    State.inv_edge (offerAll_keeps_parserInv bs hp) (by rwa [ho]) (fun _ hq => by rw [hc hq, hcap])
  exact (he.setObuf (hmw hm)).setResults rs

/-- An edge the Host drives keeps the invariant: the capacity it leaves is the one it presents. -/
theorem State.Inv.runEdge {s : State} (hs : s.Inv) (pins : Pins) :
    (((s.edge pins).setCap (some (requestedCap pins s.cap))).setResults []).Inv :=
  (State.inv_edge hs.parser hs.obuf fun hr hq => (portCap_requestedCap hq hr s.cap).symm).setResults []

/-- The Host's copy keeps the invariant: it writes to `obuf` only. -/
theorem State.Inv.runCopyFrame {s t : State} (hs : s.Inv) (h : runCopyFrame s = .next t) : t.Inv := by
  rcases runCopyFrame_cases h with ⟨-, rfl⟩ | ⟨-, -, rfl⟩ | ⟨-, -, rfl⟩
  · exact hs.setResults []
  · exact (hs.setObuf (Memory.wf_writeBytes hs.obuf _ _)).setResults []
  · exact ((hs.setObuf (Memory.wf_havoc hs.obuf _ _)).nextDraw).setResults []

/-- Settles O55, by the cases of a step. -/
theorem everyStepKeepsInvariant : Obligations.EveryStepKeepsInvariant := by
  intro s t hs h
  rcases step_cases h with ⟨-, rfl⟩ | ⟨_, cap, rest, _, -, -, he⟩ | ⟨pins, rest, -, rfl⟩ | ⟨rest, -, hc⟩ | ⟨rest, rs, -, rfl⟩
  · exact hs
  · exact exec_inv (s := (s.setPending rest).setCap cap) hs.parser hs.obuf he
  · exact (hs.setPending rest).runEdge pins
  · exact (hs.setPending rest).runCopyFrame hc
  · exact (hs.setPending rest).setResults rs

end Sys2Proof.Machine
end

section
/-! SUPPORT. Parsers no operation can tell apart (spec/10_state.md R23, 92_eei_decisions.md D12), from one byte up to one
step: O22 and O59. -/

namespace Sys2Proof.Machine

/-! ### The Parser -/

/-- In AwaitStart no slot counts. -/
theorem Parser.same_of_start {p q : Parser} (hp : p.pos = 0) (hq : q.pos = 0) : p.Same q :=
  ⟨hp.trans hq.symm, fun k hk => by simp [hp] at hk⟩

/-- Buffering one byte at `pos` in both keeps two Parsers alike. -/
theorem Parser.Same.store {p q : Parser} (h : p.Same q) {slot next : Pos} (b : Byte) (hs : p.pos = slot)
    (hn : next.val = slot.val + 1) : (p.store slot next b).Same (q.store slot next b) := by
  refine ⟨rfl, fun k hk => ?_⟩
  have hk' : k.val < slot.val + 1 := hn ▸ hk
  show (p.buf.set slot b)[k.val] = (q.buf.set slot b)[k.val]
  rw [Vector.getElem_set, Vector.getElem_set]
  split
  · rfl
  · exact h.2 k (by rw [hs]; omega)

/-- In AwaitEnd Parsers alike hold the same candidate frame. -/
theorem Parser.Same.candidate {p q : Parser} (h : p.Same q) (h9 : p.pos = 9) (b : Byte) :
    p.candidate b = q.candidate b := by
  have hk (k : Pos) (hlt : k.val < 9) : p.buf[k] = q.buf[k] := h.2 k (by simpa [h9] using hlt)
  rw [Parser.candidate, Parser.candidate, Frame.mk.injEq]
  exact ⟨hk 0 (by decide), hk 1 (by decide), hk 2 (by decide), hk 3 (by decide), hk 4 (by decide), hk 5 (by decide),
    hk 6 (by decide), hk 7 (by decide), hk 8 (by decide), rfl⟩

/-- The result of AwaitEnd depends on the candidate frame only. -/
theorem awaitEnd_result_of_candidate (t : CommandTable) (n m : Nat) {b : Byte} {p q : Parser}
    (h : p.candidate b = q.candidate b) : (awaitEnd t n b p).2 = (awaitEnd t m b q).2 := by
  simp only [Parser.candidate, Frame.mk.injEq] at h
  obtain ⟨-, h1, h2, h3, h4, h5, h6, h7, h8, -⟩ := h
  simp only [awaitEnd, h1, h2, h3, h4, h5, h6, h7, h8]
  split <;> [rfl; split <;> rfl]

/-- The arms of R100: one position each for AwaitStart, AwaitVersion, AwaitLength and AwaitEnd, and the six positions
that only buffer. -/
theorem Pos.cases_arm (k : Pos) : k = 0 ∨ k = 1 ∨ k = 2 ∨ (3 ≤ k.val ∧ k.val < 9) ∨ k = 9 := by
  revert k; decide

/-- One byte gives Parsers alike the same result and leaves them alike, whatever draws a discarded frame leaves. -/
theorem Parser.Same.processByte {p q : Parser} (h : p.Same q) (t : CommandTable) (n m : Nat) (b : Byte) :
    (p.processByte t n b).1.Same (q.processByte t m b).1 ∧ (p.processByte t n b).2 = (q.processByte t m b).2 := by
  have hd : (Parser.discarded n).Same (Parser.discarded m) := Parser.same_of_start rfl rfl
  rcases Pos.cases_arm p.pos with h0 | h1 | h2 | ⟨h3, h9⟩ | h9
  · rw [processByte_awaitStart t n b h0, processByte_awaitStart t m b (h.1 ▸ h0)]
    unfold awaitStart
    split
    · exact ⟨h.store b h0 rfl, rfl⟩
    · exact ⟨h, rfl⟩
  · rw [processByte_awaitVersion t n b h1, processByte_awaitVersion t m b (h.1 ▸ h1)]
    unfold awaitVersion
    split
    · exact ⟨h.store b h1 rfl, rfl⟩
    · exact ⟨hd, rfl⟩
  · rw [processByte_awaitLength t n b h2, processByte_awaitLength t m b (h.1 ▸ h2)]
    unfold awaitLength
    split
    · exact ⟨h.store b h2 rfl, rfl⟩
    · exact ⟨hd, rfl⟩
  · rw [processByte_data t n b h3 h9, processByte_data t m b (h.1 ▸ h3) (h.1 ▸ h9)]
    simp only [← h.1, and_true]
    exact h.store b rfl rfl
  · rw [processByte_awaitEnd t n b h9, processByte_awaitEnd t m b (h.1 ▸ h9)]
    refine ⟨?_, awaitEnd_result_of_candidate t n m (h.candidate h9 b)⟩
    rw [(awaitEnd_cases t n b p).1, (awaitEnd_cases t m b q).1]
    exact hd

/-- Settles O22, by induction on the stream. -/
theorem slotsBeyondPosUnobservable : Obligations.SlotsBeyondPosUnobservable := by
  intro bs
  induction bs with
  | nil => exact fun s t h => ⟨s, t, [], rfl, rfl, h⟩
  | cons b bs ih =>
    intro s t h
    obtain ⟨hp, hr⟩ := h.processByte Config.commands s.draws t.draws b
    obtain ⟨s', t', rs, hs, ht, h'⟩ := ih (afterByte b s) (afterByte b t) hp
    exact ⟨s', t', (afterByte b s).results ++ rs, by simp [processAll_cons, hs], by simp [processAll_cons, ht, hr], h'⟩

/-! ### The Parser's ports -/

/-- Only a Complete shows bytes of the candidate frame (R75). -/
theorem ParserOutputs.ofResult_of_not_complete (n : Nat) (c d : Byte) (v w : Word16) {r : ParseResult}
    (hr : ∀ m, r ≠ .complete m) : ParserOutputs.ofResult n c v r = ParserOutputs.ofResult n d w r := by
  rcases r with _ | m | (_ | _)
  · rfl
  · exact absurd rfl (hr m)
  · rfl
  · rfl

/-- Only the byte at offset 9 completes a frame. -/
theorem pos_of_processByte_complete {t : CommandTable} {n : Nat} {b : Byte} {p : Parser} {m : Message}
    (h : (p.processByte t n b).2 = .complete m) : p.pos = 9 := by
  rcases processByte_cases t n b p with ⟨-, -, e⟩ | ⟨_, -, -, -, e⟩ | ⟨-, e⟩ | ⟨h9, -⟩
  · simp [e] at h
  · simp [e] at h
  · simp [e] at h
  · exact h9

/-- An edge leaves Parsers alike, with the same outputs. -/
theorem Parser.Same.parserEdge {p q : Parser} (h : p.Same q) (t : CommandTable) (n : Nat) (pins : Pins) :
    (parserEdge t n pins p).1.Same (parserEdge t n pins q).1 ∧
      (parserEdge t n pins p).2 = (parserEdge t n pins q).2 := by
  rcases parserEdge_cases t n pins with he | he | he <;> rw [he p, he q]
  · exact ⟨Parser.same_of_start rfl rfl, rfl⟩
  · obtain ⟨hs, hr⟩ := h.processByte t n n pins.inByte
    refine ⟨hs, ?_⟩
    simp only [parserEdge_offer, ← hr]
    by_cases h9 : p.pos = 9
    · have hc := h.candidate h9 0
      simp only [Parser.candidate, Frame.mk.injEq] at hc
      obtain ⟨-, -, -, h3, -, h5, h6, -⟩ := hc
      rw [h3, h5, h6]
    · exact ParserOutputs.ofResult_of_not_complete n _ _ _ _ fun m hm => h9 (pos_of_processByte_complete hm)
  · exact ⟨h, rfl⟩

/-! ### The machine -/

/-- Two states that differ in Parser slots at and beyond `pos` only. -/
def State.Alike (s t : State) : Prop := ∃ q, t = { s with parser := q } ∧ s.parser.Same q

/-- Two outcomes of one step: where the first is a next state, so is the second, and it is alike. -/
def OutcomesAlike (o o' : Host.Outcome State Fault Refusal) : Prop :=
  ∀ s, o = .next s → ∃ t, o' = .next t ∧ s.Alike t

theorem State.Alike.next {s t : State} (h : s.Alike t) : OutcomesAlike (.next s) (.next t) := by
  rintro _ ⟨⟩
  exact ⟨t, rfl, h⟩

section
variable {s t : State} (h : s.Alike t)
include h

theorem State.Alike.setResults (rs : List OpResult) : (s.setResults rs).Alike (t.setResults rs) := by
  obtain ⟨q, rfl, hq⟩ := h
  exact ⟨q, rfl, hq⟩

theorem State.Alike.setObuf (m : Memory) : (s.setObuf m).Alike (t.setObuf m) := by
  obtain ⟨q, rfl, hq⟩ := h
  exact ⟨q, rfl, hq⟩

theorem State.Alike.setCap (c : Option Nat) : (s.setCap c).Alike (t.setCap c) := by
  obtain ⟨q, rfl, hq⟩ := h
  exact ⟨q, rfl, hq⟩

theorem State.Alike.setPending (es : List Event) : (s.setPending es).Alike (t.setPending es) := by
  obtain ⟨q, rfl, hq⟩ := h
  exact ⟨q, rfl, hq⟩

theorem State.Alike.edge (pins : Pins) : (s.edge pins).Alike (t.edge pins) := by
  obtain ⟨q, rfl, hq⟩ := h
  obtain ⟨hs, ho⟩ := hq.parserEdge Config.commands s.draws pins
  exact ⟨(parserEdge Config.commands s.draws pins q).1, by simp only [State.edge, State.clock, ho], hs⟩

theorem State.Alike.offer (b : Byte) : (offer b s).1.Alike (offer b t).1 ∧ (offer b s).2 = (offer b t).2 := by
  refine ⟨h.edge (Pins.offer b), ?_⟩
  obtain ⟨q, rfl, hq⟩ := h
  exact (hq.processByte Config.commands s.draws s.draws b).2

theorem State.Alike.offerAll (bs : List Byte) :
    (offerAll bs s).1.Alike (offerAll bs t).1 ∧ (offerAll bs s).2 = (offerAll bs t).2 := by
  induction bs generalizing s t with
  | nil => exact ⟨h, rfl⟩
  | cons b bs ih =>
    obtain ⟨hb, hr⟩ := h.offer b
    obtain ⟨hbs, hrs⟩ := ih hb
    simp only [offerAll_cons, hr, hrs, and_true]
    exact hbs

theorem State.Alike.exec (i : Instr) : OutcomesAlike (exec i s) (exec i t) := by
  cases i with
  | idle _ => exact ((h.edge Pins.idle).setResults []).next
  | processByte b _ =>
    obtain ⟨hs, hr⟩ := h.offer b
    show OutcomesAlike (execProcessByte b s) (execProcessByte b t)
    rw [execProcessByte, execProcessByte, hr]
    exact (hs.setResults _).next
  | serialize code param =>
    have hs := (((h.edge (Pins.request code param s.cap)).setObuf
      (serializeInto s.draws code param s.cap s.obuf)).setResults [.serialize (serResult s.cap)]).next
    obtain ⟨q, rfl, -⟩ := h
    exact hs
  | clear _ => exact ((h.edge Pins.clearing).setResults []).next
  | frame f =>
    obtain ⟨hs, hr⟩ := h.offerAll f.bytes
    show OutcomesAlike (execFrame f s) (execFrame f t)
    rw [execFrame, execFrame, hr]
    exact (hs.setResults _).next

theorem State.Alike.runEdge (pins : Pins) : OutcomesAlike (runEdge pins s) (runEdge pins t) := by
  have hs := (((h.edge pins).setCap (some (requestedCap pins s.cap))).setResults []).next
  obtain ⟨q, rfl, -⟩ := h
  exact hs

theorem State.Alike.runCopyFrame : OutcomesAlike (runCopyFrame s) (runCopyFrame t) := by
  obtain ⟨q, rfl, hq⟩ := h
  refine State.Alike.next (State.Alike.setResults ?_ [])
  dsimp only
  split
  · split <;> exact ⟨q, rfl, hq⟩
  · exact ⟨q, rfl, hq⟩

theorem State.Alike.runSample : OutcomesAlike (runSample s) (runSample t) := by
  obtain ⟨q, rfl, hq⟩ := h
  unfold Machine.runSample
  cases s.parserOut.read Config.commands with
  | ok rs => exact State.Alike.next ⟨q, rfl, hq⟩
  | error f => exact nofun

theorem State.Alike.step : OutcomesAlike (step s) (step t) := by
  have hp : t.pending = s.pending := by
    obtain ⟨q, rfl, -⟩ := h
    rfl
  unfold Machine.step
  rw [hp]
  rcases s.pending with _ | ⟨⟨word, cap⟩ | pins | _ | _, rest⟩
  · exact h.next
  · dsimp only
    cases decode word with
    | ok i => exact ((h.setPending rest).setCap cap).exec i
    | error e => exact nofun
  · exact (h.setPending rest).runEdge pins
  · exact (h.setPending rest).runCopyFrame
  · exact (h.setPending rest).runSample

end

/-- Settles O59: states that differ in Parser slots at and beyond `pos` only have alike steps. -/
theorem everyStepKeepsParsersSame : Obligations.EveryStepKeepsParsersSame := by
  intro s s' q h hs
  obtain ⟨t, ht, q', rfl, hq'⟩ := State.Alike.step ⟨q, rfl, h⟩ s' hs
  exact ⟨q', ht, hq'⟩

end Sys2Proof.Machine
end

section
/-! SUPPORT. The running sum `acc` (spec/10_state.md R25) and the position register (R32), O23 and O24. -/

namespace Sys2Proof.Machine

/-- One byte more adds that byte (R14). -/
theorem sum16_concat (bs : List Byte) (b : Byte) : sum16 (bs ++ [b]) = sum16 bs + zext16 b := by
  induction bs with
  | nil => simp [sum16]
  | cons c bs ih => rw [List.cons_append, sum16, sum16, ih, BitVec.add_assoc]

/-- Nothing is summed before the byte at offset 1 is buffered. -/
theorem acc_of_pos_le_one {p : Parser} (h : p.pos.val ≤ 1) : p.acc = 0 := by
  have hnil : p.summed = [] := by
    apply List.drop_eq_nil_of_le
    simp only [List.length_take]
    omega
  rw [Parser.acc, hnil, sum16]

/-- Buffering a byte at offsets 1 to 6 appends it to the checksum operands. -/
theorem summed_store_operand {p : Parser} (h1 : 1 ≤ p.pos.val) (h6 : p.pos.val ≤ 6) {next : Pos}
    (hn : next.val = p.pos.val + 1) (b : Byte) : (p.store p.pos next b).summed = p.summed ++ [b] := by
  have hl : p.pos.val < p.buf.toList.length := by simp
  have ht : (p.buf.toList.set p.pos.val b).take (p.pos.val + 1) = p.buf.toList.take p.pos.val ++ [b] := by
    rw [List.take_succ_eq_append_getElem (by simp), List.take_set_of_le (le_refl _), List.getElem_set_self]
  simp only [Parser.summed, Parser.store_pos, Parser.store_buf, Vector.toList_set, hn]
  rw [min_eq_left (by omega), min_eq_left (by omega), ht, List.drop_append_of_le_length (by simp; omega)]

/-- Buffering a byte beyond offset 6 leaves the checksum operands. -/
theorem summed_store_beyond {p : Parser} (h7 : 7 ≤ p.pos.val) {next : Pos} (hn : next.val = p.pos.val + 1) (b : Byte) :
    (p.store p.pos next b).summed = p.summed := by
  simp only [Parser.summed, Parser.store_pos, Parser.store_buf, Vector.toList_set, hn]
  rw [min_eq_right (by omega), min_eq_right h7, List.take_set_of_le h7]

/-- Buffering a byte adds it to `acc` at offsets 1 to 6 and nowhere else. -/
theorem acc_store {p : Parser} {next : Pos} (hn : next.val = p.pos.val + 1) (b : Byte) :
    (p.store p.pos next b).acc = if 1 ≤ p.pos.val ∧ p.pos.val ≤ 6 then p.acc + zext16 b else p.acc := by
  split
  · next h => rw [Parser.acc, summed_store_operand h.1 h.2 hn, sum16_concat, Parser.acc]
  · next h =>
    by_cases h0 : p.pos.val = 0
    · rw [acc_of_pos_le_one (p := p) (by omega), acc_of_pos_le_one (by simp [hn, h0])]
    · rw [Parser.acc, summed_store_beyond (by omega) hn, Parser.acc]

/-- In AwaitEnd the checksum operands are the bytes at offsets 1 to 6. -/
theorem summed_awaitEnd {p : Parser} (h : p.pos = 9) :
    p.summed = [p.buf[1], p.buf[2], p.buf[3], p.buf[4], p.buf[5], p.buf[6]] := by
  apply List.ext_getElem
  · simp [Parser.summed, h]
  · intro k hk _
    have hk6 : k < 6 := by simpa [Parser.summed, h] using hk
    interval_cases k <;> simp [Parser.summed]

/-- A byte that moves `pos` on was buffered. -/
theorem processByte_of_advance {t : CommandTable} {n : Nat} {b : Byte} {p : Parser}
    (h : (p.processByte t n b).1.pos.val = p.pos.val + 1) :
    ∃ next : Pos, next.val = p.pos.val + 1 ∧ (p.processByte t n b).1 = p.store p.pos next b := by
  rcases processByte_cases t n b p with ⟨-, -, e⟩ | ⟨_, -, -, -, e⟩ | ⟨-, e⟩ | ⟨-, e⟩
  · simp [e] at h
  · exact ⟨_, rfl, by rw [e]⟩
  · simp [e] at h
  · simp [e, (awaitEnd_cases t n b p).1] at h

/-- Settles O23: the three clauses are `acc_of_pos_le_one`, `acc_store` and `summed_awaitEnd`. -/
theorem runningSumEqualsAcc : Obligations.RunningSumEqualsAcc := by
  refine ⟨fun p => acc_of_pos_le_one, fun t n b p h => ?_, fun p h => ?_⟩
  · obtain ⟨next, hn, hs⟩ := processByte_of_advance h
    rw [hs, acc_store hn]
  · rw [Parser.acc, summed_awaitEnd h, toNat_sum16]

/-- Settles O24: `pos` fits the register, and the view sends a register beyond nine to AwaitStart. -/
theorem posRegisterEncoding : Obligations.PosRegisterEncoding := by
  refine ⟨fun p => ⟨?_, posOfRegister_registerOfPos p⟩, fun r hr => ?_⟩
  · rw [registerOfPos, BitVec.toNat_ofNat]
    omega
  · exact dif_neg (by omega)

end Sys2Proof.Machine
end

section
/-! SUPPORT. What reset and the operations leave on the ports (spec/10_state.md R20, R31), O43 and O50. -/

namespace Sys2Proof.Machine

/-- Settles O43: with `pos` at 0 nothing has been summed. -/
theorem resetState : Obligations.ResetState :=
  ⟨rfl, acc_of_pos_le_one (by decide), rfl, rfl⟩

/-- The bytes of a frame leave no result of the Encoder: the last edge is that of an offered byte. -/
theorem offerAll_frame_encDone (f : Frame) (s : State) : (offerAll f.bytes s).1.encoderOut.encDone = false := by
  have hb : f.bytes = f.bytes.take 9 ++ [f.endMark] := rfl
  rw [hb, offerAll_concat]
  simp

/-- Settles O50, instruction by instruction: each is an edge with only its own inputs asserted, FRAME ten of them. -/
theorem onlyItsOperationsReachAUnit : Obligations.OnlyItsOperationsReachAUnit := by
  intro i s
  cases i with
  | idle _ => exact ⟨_, rfl, fun _ => ⟨rfl, rfl⟩, fun _ => rfl, fun _ => rfl⟩
  | processByte b _ => exact ⟨_, rfl, by simp, by simp, fun _ => rfl⟩
  | serialize code param => exact ⟨_, rfl, fun _ => ⟨rfl, rfl⟩, fun _ => rfl, fun h => absurd rfl (h code param)⟩
  | clear _ => exact ⟨_, rfl, by simp, fun _ => rfl, fun _ => rfl⟩
  | frame f => exact ⟨_, rfl, by simp, by simp, fun _ => offerAll_frame_encDone f s⟩

end Sys2Proof.Machine
end

section
/-! SUPPORT. What operations leave to each other (spec/20_memory.md R40, R48, R50), O49, O51 and O52. -/

namespace Sys2Proof.Machine

/-! ### SERIALIZE as an operation of the Host -/

/-- The state one SERIALIZE leaves. -/
def afterSerialize (code : Byte) (param : Word16) (s : State) : State :=
  ((s.edge (Pins.request code param s.cap)).setObuf (serializeInto s.draws code param s.cap s.obuf)).setResults
    [.serialize (serResult s.cap)]

section
variable (code : Byte) (param : Word16) (s : State)

theorem exec_serialize : exec (.serialize code param) s = .next (afterSerialize code param s) := rfl

@[simp] theorem afterSerialize_parser : (afterSerialize code param s).parser = s.parser := rfl

@[simp] theorem afterSerialize_obuf :
    (afterSerialize code param s).obuf = serializeInto s.draws code param s.cap s.obuf := rfl

@[simp] theorem afterSerialize_cap : (afterSerialize code param s).cap = s.cap := rfl

@[simp] theorem afterSerialize_results :
    (afterSerialize code param s).results = [.serialize (serResult s.cap)] := rfl

@[simp] theorem afterByte_cap (b : Byte) : (afterByte b s).cap = s.cap := rfl

end

/-- In a buffer that is large enough SERIALIZE writes the frame, and no draw (R90). -/
theorem serializeInto_of_ten_le {cap : Nat} (h : 10 ≤ cap) (n : Nat) (code : Byte) (param : Word16) (m : Memory) :
    serializeInto n code param cap m = m.writeBytes 0 (buildFrame code param).bytes :=
  if_neg (Nat.not_lt.mpr h)

/-- The same bytes written again at the same place are read as before. -/
theorem Memory.read_writeBytes_twice (m : Memory) (i j : Nat) (vs : List Byte) :
    ((m.writeBytes i vs).writeBytes i vs).read j = (m.writeBytes i vs).read j := by
  rw [Memory.read_writeBytes (m.writeBytes i vs), Memory.read_writeBytes m]
  split <;> rfl

/-! ### The statements -/

/-- Settles O49, instruction by instruction: an edge leaves all that is the Host's, and SERIALIZE alone writes `obuf`
after it. -/
theorem onlySerializeWritesObuf : Obligations.OnlySerializeWritesObuf := by
  intro i s
  cases i with
  | idle _ => exact ⟨_, rfl, rfl, rfl, fun _ _ => rfl⟩
  | processByte b _ => exact ⟨_, rfl, rfl, rfl, fun _ _ => rfl⟩
  | serialize code param => exact ⟨_, rfl, rfl, rfl, fun h => absurd rfl (h code param)⟩
  | clear _ => exact ⟨_, rfl, rfl, rfl, fun _ _ => rfl⟩
  | frame f =>
    obtain ⟨hobuf, hcap, hpending, -⟩ := offerAll_frame s f.bytes
    refine ⟨(offerAll f.bytes s).1.setResults ((offerAll f.bytes s).2.map .parse), rfl, ?_, ?_, fun _ a => ?_⟩
    · rw [State.setResults_cap, hcap]
    · rw [State.setResults_pending, hpending]
    · rw [State.setResults_obuf, hobuf]

theorem Parser.Same.refl (p : Parser) : p.Same p := ⟨rfl, fun _ _ => rfl⟩

/-- Settles O51: SERIALIZE leaves the Parser and PROCESS_BYTE leaves `obuf` and its capacity, so the order moves only
the draws, which neither the result nor the slots below `pos` of the one, nor the frame the other writes, depend on. -/
theorem unitsCommute : Obligations.UnitsCommute := by
  intro code param b x s
  obtain ⟨hsame, hresult⟩ :=
    (Parser.Same.refl s.parser).processByte Config.commands (afterSerialize code param s).draws s.draws b
  refine ⟨_, _, _, _, exec_serialize code param s, exec_processByte b x _, exec_processByte b x s,
    exec_serialize code param _, rfl, ?_, hsame, fun hcap a => ?_⟩
  · simp [hresult]
  · simp [serializeInto_of_ten_le hcap]

/-- A start marker from AwaitStart leaves AwaitVersion, where a second one is the wrong byte (R101, R102). -/
theorem startMarker_twice {p : Parser} (h : p.pos = 0) (t : CommandTable) (n m : Nat) :
    (p.processByte t n Config.startMarker).2 = .incomplete ∧
      ((p.processByte t n Config.startMarker).1.processByte t m Config.startMarker).2 = .error .framingError := by
  have hfirst : p.processByte t n Config.startMarker = (p.store 0 1 Config.startMarker, .incomplete) := by
    rw [processByte_awaitStart t n _ h, awaitStart, if_pos rfl]
  rw [hfirst, processByte_awaitVersion t m _ rfl, awaitVersion, if_neg (by decide)]
  exact ⟨rfl, rfl⟩

/-- Settles O52: after CLEAR no slot counts, the frame is written over itself, and the rest is `startMarker_twice`. -/
theorem idempotency : Obligations.Idempotency := by
  refine ⟨fun x y s => ?_, fun code param s hcap => ?_, fun x y s h => ?_⟩
  · exact ⟨_, _, rfl, rfl, Parser.same_of_start rfl rfl⟩
  · refine ⟨_, _, exec_serialize code param s, exec_serialize code param _, rfl, fun a => ?_⟩
    simp only [afterSerialize_obuf, afterSerialize_cap, serializeInto_of_ten_le hcap]
    exact (Memory.read_writeBytes_twice s.obuf 0 a _).symm
  · obtain ⟨hfirst, hsecond⟩ := startMarker_twice h Config.commands s.draws (afterByte 0x7E s).draws
    exact ⟨_, _, exec_processByte 0x7E x s, exec_processByte 0x7E y _, congrArg ([OpResult.parse ·]) hfirst,
      congrArg ([OpResult.parse ·]) hsecond⟩

end Sys2Proof.Machine
end

section
/-! SUPPORT. Words to instructions and back (spec/30_encoding.md R69, R70, R72, R74; spec/00_scope.md R18): O1 to O5. -/

namespace Sys2Proof

/-! ### The fields of a HOSTOP word -/

section
variable (p16 : Word16) (d8 : Byte) (rest : BitVec 24) (op : BitVec 2)

@[simp] theorem HostopWord.op_ofFields : (HostopWord.ofFields p16 d8 op).op = op := by
  apply BitVec.eq_of_toNat_eq
  rw [HostopWord.toNat_op, HostopWord.toNat_ofFields]
  omega

@[simp] theorem HostopWord.d8_ofFields : (HostopWord.ofFields p16 d8 op).d8 = d8 := by
  apply BitVec.eq_of_toNat_eq
  rw [HostopWord.toNat_d8, HostopWord.toNat_ofFields]
  omega

@[simp] theorem HostopWord.p16_ofFields : (HostopWord.ofFields p16 d8 op).p16 = p16 := by
  apply BitVec.eq_of_toNat_eq
  rw [HostopWord.toNat_p16, HostopWord.toNat_ofFields]
  omega

@[simp] theorem HostopWord.op_ofRest : (HostopWord.ofRest rest op).op = op := by
  apply BitVec.eq_of_toNat_eq
  rw [HostopWord.toNat_op, HostopWord.toNat_ofRest]
  omega

@[simp] theorem HostopWord.rest_ofRest : (HostopWord.ofRest rest op).rest = rest := by
  apply BitVec.eq_of_toNat_eq
  rw [HostopWord.toNat_rest, HostopWord.toNat_ofRest]
  omega

end

section
variable (w : HostopWord)

theorem HostopWord.ofFields_self : HostopWord.ofFields w.p16 w.d8 w.op = w := by
  apply BitVec.eq_of_toNat_eq
  rw [HostopWord.toNat_ofFields, HostopWord.toNat_p16, HostopWord.toNat_d8, HostopWord.toNat_op]
  omega

theorem HostopWord.ofRest_self : HostopWord.ofRest w.rest w.op = w := by
  apply BitVec.eq_of_toNat_eq
  rw [HostopWord.toNat_ofRest, HostopWord.toNat_rest, HostopWord.toNat_op]
  omega

theorem HostopWord.d8_eq_ofNat : w.d8 = BitVec.ofNat 8 (w.toNat / 4) :=
  BitVec.eq_of_toNat_eq w.toNat_d8

theorem HostopWord.p16_eq_ofNat : w.p16 = BitVec.ofNat 16 (w.toNat / 1024) :=
  BitVec.eq_of_toNat_eq w.toNat_p16

theorem HostopWord.rest_eq_ofNat : w.rest = BitVec.ofNat 24 (w.toNat / 4) :=
  BitVec.eq_of_toNat_eq w.toNat_rest

theorem HostopWord.op_eq_iff (op : BitVec 2) : w.op = op ↔ w.toNat % 4 = op.toNat := by
  rw [← BitVec.toNat_inj, HostopWord.toNat_op]

end

/-! ### The four operations of a HOSTOP word (R74) -/

section
variable {w : HostopWord}

theorem decodeHostop_idle (h : w.op = 0b00#2) : decodeHostop w = .idle w.rest := by
  simp [decodeHostop, h]

theorem decodeHostop_processByte (h : w.op = 0b01#2) : decodeHostop w = .processByte w.d8 w.p16 := by
  simp [decodeHostop, h]

theorem decodeHostop_serialize (h : w.op = 0b10#2) : decodeHostop w = .serialize w.d8 w.p16 := by
  simp [decodeHostop, h]

theorem decodeHostop_clear (h : w.op = 0b11#2) : decodeHostop w = .clear w.rest := by
  simp [decodeHostop, h]

end

theorem HostopWord.op_cases (w : HostopWord) : w.op = 0b00#2 ∨ w.op = 0b01#2 ∨ w.op = 0b10#2 ∨ w.op = 0b11#2 := by
  generalize w.op = op
  revert op
  decide

/-- The instruction of a HOSTOP word is well formed and encodes to that word. -/
theorem encode_decodeHostop (w : HostopWord) :
    encode (decodeHostop w) = .hostop w ∧ (decodeHostop w).wellFormed = true := by
  rcases w.op_cases with h | h | h | h
  · rw [decodeHostop_idle h, encode, ← h, HostopWord.ofRest_self]
    exact ⟨rfl, rfl⟩
  · rw [decodeHostop_processByte h, encode, ← h, HostopWord.ofFields_self]
    exact ⟨rfl, rfl⟩
  · rw [decodeHostop_serialize h, encode, ← h, HostopWord.ofFields_self]
    exact ⟨rfl, rfl⟩
  · rw [decodeHostop_clear h, encode, ← h, HostopWord.ofRest_self]
    exact ⟨rfl, rfl⟩

/-! ### Frame words -/

theorem Frame.structural_iff (f : Frame) :
    f.structural = true ↔ f.start = 0x7E ∧ f.version = 0xFF ∧ f.length = 0x06 ∧ f.endMark = 0xEF := by
  simp only [Frame.structural, Bool.and_eq_true, beq_iff_eq, and_assoc, Config.startMarker, Config.version,
    Config.lengthByte, Config.endMarker]

/-- A word matches the FRAME row exactly when the frame of its ten bytes has the structure of R69. -/
theorem FrameWord.matches_iff (w : FrameWord) :
    w &&& frameMask = framePattern ↔ (Frame.ofWord w).structural = true := by
  have hmask := Laws.RowPattern.masked (Frame.ofWord w)
  have hpattern : Frame.ofWord framePattern = ⟨0x7E, 0xFF, 0x06, 0, 0, 0, 0, 0, 0, 0xEF⟩ := by decide
  rw [Frame.toWord_ofWord] at hmask
  rw [Frame.structural_iff]
  constructor
  · intro h
    rw [h, hpattern, Frame.mk.injEq] at hmask
    obtain ⟨h0, h1, h2, -, -, -, -, -, -, h9⟩ := hmask
    exact ⟨h0.symm, h1.symm, h2.symm, h9.symm⟩
  · rintro ⟨h0, h1, h2, h9⟩
    apply FrameWord.eq_of_bytes
    rw [hmask, hpattern, h0, h1, h2, h9]

/-- Exactly the words with the structure of R69 decode, each to the frame of its ten bytes. -/
theorem decodeFrame_eq_ok_iff {w : FrameWord} {i : Instr} :
    decodeFrame w = .ok i ↔ (Frame.ofWord w).structural = true ∧ i = .frame (Frame.ofWord w) := by
  rw [← FrameWord.matches_iff, decodeFrame]
  split <;> simp_all [eq_comm]

theorem FrameWord.byteAt_eq_ofNat (w : FrameWord) (k : Nat) :
    w.byteAt k = BitVec.ofNat 8 (w.toNat / 2 ^ (72 - 8 * k)) :=
  BitVec.eq_of_toNat_eq (w.toNat_byteAt k)

/-- The bytes of a frame in wire order are those of its word, offset by offset (R18, R44). -/
theorem Frame.bytes_ofWord (w : FrameWord) {k : Nat} (hk : k < 10) :
    (Frame.ofWord w).bytes[k]? = some (BitVec.ofNat 8 (w.toNat / 2 ^ (72 - 8 * k))) := by
  rw [← FrameWord.byteAt_eq_ofNat]
  interval_cases k <;> rfl

/-- The bytes of a frame in wire order, read from its word. -/
theorem Frame.bytes_toWord (f : Frame) {k : Nat} (hk : k < 10) :
    f.bytes[k]? = some (BitVec.ofNat 8 (f.toWord.toNat / 2 ^ (72 - 8 * k))) := by
  rw [← Frame.bytes_ofWord f.toWord hk, Frame.ofWord_toWord]

/-- The structure of R69 on a word, in numbers. -/
theorem structural_ofWord_iff (w : FrameWord) : (Frame.ofWord w).structural = true ↔
    w.toNat / 2 ^ 72 = 0x7E ∧ w.toNat / 2 ^ 64 % 256 = 0xFF ∧ w.toNat / 2 ^ 56 % 256 = 0x06 ∧
      w.toNat % 256 = 0xEF := by
  have htop : w.toNat / 2 ^ (72 - 8 * 0) % 256 = w.toNat / 2 ^ 72 := by omega
  rw [Frame.structural_iff]
  simp only [Frame.ofWord, ← BitVec.toNat_inj, FrameWord.toNat_byteAt, htop, BitVec.ofNat_eq_ofNat, BitVec.toNat_ofNat]
  norm_num

/-! ### The statements -/

/-- Settles O1: `op` chooses the equation of `decodeHostop`, and the fields are `w` divided by the weight of their
lowest bit. -/
theorem hostopFieldsChooseOperation : Obligations.HostopFieldsChooseOperation := by
  intro w
  rw [← w.rest_eq_ofNat, ← w.d8_eq_ofNat, ← w.p16_eq_ofNat]
  exact ⟨fun h => congrArg _ (decodeHostop_idle ((w.op_eq_iff _).mpr h)),
    fun h => congrArg _ (decodeHostop_processByte ((w.op_eq_iff _).mpr h)),
    fun h => congrArg _ (decodeHostop_serialize ((w.op_eq_iff _).mpr h)),
    fun h => congrArg _ (decodeHostop_clear ((w.op_eq_iff _).mpr h))⟩

/-- Settles O2, row by row: the fields of the word are the operands, and a frame's word matches the pattern. -/
theorem decodeEncodeRoundTrip : Obligations.DecodeEncodeRoundTrip := by
  intro i hi
  cases i with
  | idle ignored => simp [encode, decode, decodeHostop_idle]
  | processByte b ignored => simp [encode, decode, decodeHostop_processByte]
  | serialize code param => simp [encode, decode, decodeHostop_serialize]
  | clear ignored => simp [encode, decode, decodeHostop_clear]
  | frame f =>
    rw [encode, decode, decodeFrame_eq_ok_iff, Frame.ofWord_toWord]
    exact ⟨hi, rfl⟩

/-- Settles O3: a HOSTOP word is its four fields put together again, a frame word its ten bytes. -/
theorem encodeDecodeRoundTrip : Obligations.EncodeDecodeRoundTrip := by
  intro c i h
  cases c with
  | hostop w =>
    obtain rfl := Except.ok.inj h
    exact encode_decodeHostop w
  | frame w =>
    obtain ⟨hs, rfl⟩ := decodeFrame_eq_ok_iff.mp h
    exact ⟨congrArg CodeWord.frame (Frame.toWord_ofWord w), hs⟩
  | other nbits w => exact nomatch h

/-- Settles O4: both sides say that the frame of the word's ten bytes has the structure of R69. -/
theorem framePatternFixesFourBytes : Obligations.FramePatternFixesFourBytes := by
  intro w
  refine ⟨w.matches_iff.trans (structural_ofWord_iff w), w.matches_iff.trans ⟨fun h => ?_, ?_⟩⟩
  · exact ⟨Frame.ofWord w, decodeFrame_eq_ok_iff.mpr ⟨h, rfl⟩, fun k => Frame.bytes_ofWord w⟩
  · rintro ⟨f, hf, -⟩
    exact (decodeFrame_eq_ok_iff.mp hf).1

end Sys2Proof

namespace Sys2Proof.Machine

/-- Settles O5: equal words are equal numbers, and the sum of six bytes does not wrap. -/
theorem validFrameByArithmetic : Obligations.ValidFrameByArithmetic := by
  intro f
  have hsum : frameChecksum f = neg16 (frameSum f) ↔ fieldValue f.checksumHigh f.checksumLow =
      (65536 - byteSum f.version f.length f.code f.feedback f.paramHigh f.paramLow) % 65536 := by
    rw [← BitVec.toNat_inj, toNat_neg16, frameChecksum, frameSum, toNat_wordOfBytes, toNat_sum16]
  simp only [frameValid, Bool.and_eq_true, beq_iff_eq, Frame.structural_iff, hsum, and_assoc]

end Sys2Proof.Machine
end

section
/-! SUPPORT. Streams of bytes: PROCESS_BYTE after PROCESS_BYTE as edges with an offered byte, and FRAME
(spec/30_encoding.md R84, spec/20_memory.md R44), O35. -/

namespace Sys2Proof.Machine

/-- The value last returned is read by no edge. -/
theorem offerAll_setResults (bs : List Byte) (s : State) (rs : List OpResult) :
    offerAll bs (s.setResults rs) = ((offerAll bs s).1.setResults rs, (offerAll bs s).2) := by
  induction bs generalizing s with
  | nil => rfl
  | cons b bs ih =>
    have hb : (offer b (s.setResults rs)).1 = (offer b s).1.setResults rs := rfl
    rw [offerAll_cons, offerAll_cons, hb, ih]
    rfl

/-- A stream of PROCESS_BYTE operations leaves what its edges leave, but for the last result. -/
theorem processAll_eq_offerAll (bs : List Byte) (s : State) :
    ∃ last, processAll bs s = some ((offerAll bs s).1.setResults last, (offerAll bs s).2.map .parse) := by
  induction bs generalizing s with
  | nil => exact ⟨s.results, rfl⟩
  | cons b bs ih =>
    obtain ⟨last, h⟩ := ih (afterByte b s)
    refine ⟨last, ?_⟩
    rw [processAll_cons, h, afterByte, offerAll_setResults, offerAll_cons]
    rfl

theorem offerAll_hostUntouched (bs : List Byte) (s : State) (rs : List OpResult) :
    HostUntouched s ((offerAll bs s).1.setResults rs) := by
  obtain ⟨hobuf, hcap, hpending, -⟩ := offerAll_frame s bs
  refine ⟨fun a => ?_, ?_, ?_⟩
  · rw [State.setResults_obuf, hobuf]
  · rw [State.setResults_cap, hcap]
  · rw [State.setResults_pending, hpending]

/-- A stream leaves everything that is the Host's. -/
theorem processAll_hostUntouched {bs : List Byte} {s u : State} {rs : List OpResult}
    (h : processAll bs s = some (u, rs)) : HostUntouched s u := by
  obtain ⟨last, hlast⟩ := processAll_eq_offerAll bs s
  obtain ⟨rfl, -⟩ := Prod.mk.inj (Option.some.inj (h.symm.trans hlast))
  exact offerAll_hostUntouched bs s last

theorem exec_frame (f : Frame) (s : State) :
    exec (.frame f) s = .next ((offerAll f.bytes s).1.setResults ((offerAll f.bytes s).2.map .parse)) := rfl

/-- Results handed over replace those handed over before. -/
theorem State.setResults_overwrite (s : State) (rs qs : List OpResult) :
    { s.setResults rs with results := qs } = s.setResults qs := rfl

/-- Settles O35: FRAME offers the ten bytes at ten edges, as PROCESS_BYTE after PROCESS_BYTE does. -/
theorem frameIsItsTenBytes : Obligations.FrameIsItsTenBytes := by
  intro f s
  obtain ⟨last, h⟩ := processAll_eq_offerAll f.bytes s
  obtain ⟨-, -, -, hlength⟩ := offerAll_frame s f.bytes
  refine ⟨_, _, h, ?_, ?_, offerAll_hostUntouched f.bytes s last⟩
  · rw [List.length_map, hlength]
    rfl
  · rw [exec_frame, State.setResults_overwrite]

end Sys2Proof.Machine
end

section
/-! SUPPORT. A whole frame that meets the Parser in AwaitStart (spec/41_parser.md R101 to R110, R116). -/

namespace Sys2Proof.Machine

/-- A stream in two parts: the second begins in the state the first leaves. -/
theorem processAll_append {as bs : List Byte} {s u v : State} {rs qs : List OpResult}
    (ha : processAll as s = some (u, rs)) (hb : processAll bs u = some (v, qs)) :
    processAll (as ++ bs) s = some (v, rs ++ qs) := by
  induction as generalizing s rs with
  | nil =>
    obtain ⟨rfl, rfl⟩ := Prod.mk.inj (Option.some.inj ha)
    exact hb
  | cons a as ih =>
    rw [processAll_cons, Option.map_eq_some_iff] at ha
    obtain ⟨⟨u', rs'⟩, h, heq⟩ := ha
    obtain ⟨rfl, rfl⟩ := Prod.mk.inj heq
    rw [List.cons_append, processAll_cons, ih h, Option.map_some, List.append_assoc]

/-- One byte more after a stream. -/
theorem processAll_concat {bs : List Byte} {s u : State} {rs : List OpResult} (h : processAll bs s = some (u, rs))
    (b : Byte) : processAll (bs ++ [b]) s = some (afterByte b u, rs ++ (afterByte b u).results) :=
  processAll_append h (by rw [processAll_cons, processAll_nil, Option.map_some, List.append_nil])

/-- The Parser has buffered the first `k` bytes of a frame. -/
def Parser.Holds (f : Frame) (k : Nat) (p : Parser) : Prop :=
  p.pos.val = k ∧ ∀ j : Pos, j.val < k → f.bytes[j.val]? = some p.buf[j]

/-- The next byte of a frame with the structure of R69 is buffered (R101 to R109). -/
theorem Parser.Holds.processByte {f : Frame} {k : Nat} {p : Parser} (h : p.Holds f k) (hf : f.structural = true)
    (hk : k < 9) {b : Byte} (hb : f.bytes[k]? = some b) (t : CommandTable) (n : Nat) :
    (p.processByte t n b).2 = .incomplete ∧ (p.processByte t n b).1.Holds f (k + 1) := by
  obtain ⟨rfl, hbuf⟩ := h
  obtain ⟨hstart, hversion, hlength, -⟩ := f.structural_iff.mp hf
  rcases processByte_cases t n b p with ⟨hp, hne, -⟩ | ⟨_, -, -, -, e⟩ | ⟨⟨hp, hne⟩ | ⟨hp, hne⟩, -⟩ | ⟨hp, -⟩
  · rw [hp] at hb
    exact absurd ((Option.some.inj hb).symm.trans hstart) hne
  · rw [e]
    refine ⟨rfl, rfl, fun j hj => ?_⟩
    show f.bytes[j.val]? = some (p.buf.set p.pos b)[j.val]
    rw [Vector.getElem_set]
    split
    · next hjp => rw [← hjp, hb]
    · exact hbuf j (by omega)
  · rw [hp] at hb
    exact absurd ((Option.some.inj hb).symm.trans hversion) hne
  · rw [hp] at hb
    exact absurd ((Option.some.inj hb).symm.trans hlength) hne
  · simp [hp] at hk

/-- In AwaitEnd the candidate frame is the frame whose bytes are buffered. -/
theorem Parser.Holds.candidate {f : Frame} {p : Parser} (h : p.Holds f 9) : p.candidate f.endMark = f := by
  have hj (j : Pos) (hlt : j.val < 9) {b : Byte} (hb : f.bytes[j.val]? = some b) : p.buf[j] = b :=
    Option.some.inj ((h.2 j hlt).symm.trans hb)
  cases f
  rw [Parser.candidate, Frame.mk.injEq]
  exact ⟨hj 0 (by decide) rfl, hj 1 (by decide) rfl, hj 2 (by decide) rfl, hj 3 (by decide) rfl, hj 4 (by decide) rfl,
    hj 5 (by decide) rfl, hj 6 (by decide) rfl, hj 7 (by decide) rfl, hj 8 (by decide) rfl, rfl⟩

/-- The result of the last byte of a frame with the structure of R69 (R110, R116). -/
def frameResult (f : Frame) : ParseResult :=
  if frameValid f = true then .complete (decodeMessage Config.commands f.code (frameParam f))
  else .error .checksumMismatch

/-- The last byte of a frame with the structure of R69 ends it: a message exactly when the checksum agrees. -/
theorem Parser.Holds.processByte_last {f : Frame} {p : Parser} (h : p.Holds f 9) (hf : f.structural = true) (n : Nat) :
    p.processByte Config.commands n f.endMark = (Parser.discarded n, frameResult f) := by
  obtain ⟨-, -, -, hend⟩ := f.structural_iff.mp hf
  obtain ⟨hparser, hresult⟩ := awaitEnd_cases Config.commands n f.endMark p
  rw [h.candidate] at hresult
  rw [processByte_awaitEnd _ _ _ (Fin.ext h.1)]
  refine Prod.ext hparser ?_
  rcases hresult with ⟨hr, hc⟩ | ⟨-, -, hne⟩ | ⟨hr, hc, -⟩
  · simp [hr, frameResult, frameValid, hc]
  · exact absurd hend hne
  · simp [hr, frameResult, frameValid, hf, hc]

/-- Every beginning of a frame with the structure of R69 that is offered from AwaitStart is buffered. -/
theorem processAll_take {f : Frame} (hf : f.structural = true) {s : State} (hs : s.parser.pos = 0) {k : Nat}
    (hk : k ≤ 9) : ∃ u, processAll (f.bytes.take k) s = some (u, List.replicate k (.parse .incomplete)) ∧
      u.parser.Holds f k := by
  induction k with
  | zero => exact ⟨s, rfl, congrArg Fin.val hs, fun _ hj => absurd hj (Nat.not_lt_zero _)⟩
  | succ k ih =>
    obtain ⟨u, hu, hholds⟩ := ih (by omega)
    have hlt : k < f.bytes.length := by
      show k < 10
      omega
    obtain ⟨hr, hholds'⟩ :=
      hholds.processByte hf (by omega) (List.getElem?_eq_getElem hlt) Config.commands u.draws
    refine ⟨afterByte f.bytes[k] u, ?_, hholds'⟩
    rw [List.take_succ_eq_append_getElem hlt, processAll_concat hu, afterByte_results, hr, List.replicate_succ']

/-- A frame with the structure of R69 that meets the Parser in AwaitStart: nine times Incomplete, then its result. -/
theorem processAll_frame {f : Frame} (hf : f.structural = true) {s : State} (hs : s.parser.pos = 0) :
    ∃ u, processAll f.bytes s =
        some (u, List.replicate 9 (.parse .incomplete) ++ [.parse (frameResult f)]) ∧
      u.parser.pos = 0 ∧ u.results = [.parse (frameResult f)] := by
  obtain ⟨u, hu, hholds⟩ := processAll_take hf hs (le_refl 9)
  have hlast := hholds.processByte_last hf u.draws
  have hresults : (afterByte f.endMark u).results = [.parse (frameResult f)] := by rw [afterByte_results, hlast]
  refine ⟨afterByte f.endMark u, ?_, by rw [afterByte_parser, hlast, Parser.discarded_pos], hresults⟩
  rw [← hresults, ← processAll_concat hu]
  rfl

end Sys2Proof.Machine
end

section
/-! SUPPORT. LOOP and PBS run by `step` (spec/30_encoding.md R83, R84), O33. -/

namespace Sys2Proof.Machine

theorem run_succ_of_step {s t : State} (h : step s = .next t) (k : Nat) :
    Host.Core.run core (k + 1) s = Host.Core.run core k t := by
  simp only [Host.Core.run, core, h]

/-- The word an operation is written as decodes to it. -/
theorem step_of_pending_encode {s : State} {i : Instr} {cap : Option Nat} {rest : List Event}
    (hi : i.wellFormed = true) (hp : s.pending = .op (encode i) cap :: rest) :
    step s = exec i ((s.setPending rest).setCap cap) :=
  step_of_pending_op hp (decodeEncodeRoundTrip i hi)

/-- `PBS` runs through the step, one step a byte, and leaves what the stream leaves. -/
theorem run_asmPBS {bs : List Byte} {rest : List Event} {s u : State} {rs : List OpResult}
    (hp : s.pending = asmPBS bs ++ rest) (h : processAll bs (s.setPending rest) = some (u, rs)) :
    Host.Core.run core bs.length s = .next u := by
  induction bs generalizing s rs with
  | nil =>
    obtain ⟨rfl, -⟩ := Prod.mk.inj (Option.some.inj h)
    obtain rfl : s.pending = rest := hp
    rfl
  | cons b bs ih =>
    have hstep : step s = .next (afterByte b (s.setPending (asmPBS bs ++ rest))) :=
      step_of_pending_encode (i := .processByte b 0) rfl hp
    rw [processAll_cons, Option.map_eq_some_iff] at h
    obtain ⟨⟨u', rs'⟩, h', heq⟩ := h
    obtain ⟨rfl, -⟩ := Prod.mk.inj heq
    rw [List.length_cons, run_succ_of_step hstep]
    exact ih rfl h'

/-- A frame of the Encoder comes back as the message of its operands (R112, R117). -/
theorem frameResult_buildFrame (code : Byte) (param : Word16) :
    frameResult (buildFrame code param) = .complete (decodeMessage Config.commands code param) := by
  have hparam : frameParam (buildFrame code param) = param := wordOfBytes_bytes param
  rw [frameResult, if_pos (frameValid_buildFrame code param), hparam]
  rfl

/-- A valid frame has the structure of R69. -/
theorem structural_of_frameValid {f : Frame} (h : frameValid f = true) : f.structural = true :=
  (Bool.and_eq_true_iff.mp h).1

/-- A byte of the frame that SERIALIZE wrote into a buffer that is large enough (R90). -/
theorem read_serializeInto {cap : Nat} (hcap : 10 ≤ cap) (n : Nat) (code : Byte) (param : Word16) (m : Memory)
    {k : Nat} (hk : k < 10) :
    (serializeInto n code param cap m).read k = (buildFrame code param).bytes[k]? := by
  rw [serializeInto_of_ten_le hcap, Memory.read_writeBytes]
  exact if_pos ⟨Nat.zero_le k, by rwa [Nat.zero_add]⟩

/-- The SERIALIZE of LOOP leaves the Parser, the frame in `obuf` and the stream of its bytes pending. -/
theorem step_asmLOOP {code : Byte} {param : Word16} {rest : List Event} {s : State}
    (hp : s.pending = asmLOOP code param ++ rest) :
    ∃ t, step s = .next t ∧ t.parser = s.parser ∧ t.pending = asmPBS (buildFrame code param).bytes ++ rest ∧
      ∀ k < 10, t.obuf.read k = (buildFrame code param).bytes[k]? :=
  ⟨_, step_of_pending_encode (i := .serialize code param) rfl hp, rfl, rfl,
    fun _ => read_serializeInto (le_refl 10) s.draws code param s.obuf⟩

/-- Settles O33: after the SERIALIZE, the ten steps of the stream are those of a valid frame from AwaitStart. -/
theorem loopRunsThroughStep : Obligations.LoopRunsThroughStep := by
  intro code param rest s hs hp
  obtain ⟨t, hstep, hparser, hpending, hread⟩ := step_asmLOOP hp
  obtain ⟨u, hu, hpos, hresults⟩ := processAll_frame (structural_of_frameValid (frameValid_buildFrame code param))
    (s := t.setPending rest) (hparser ▸ hs)
  obtain ⟨hobuf, -, hrest⟩ := processAll_hostUntouched hu
  have hrun : Host.Core.run core 10 t = .next u := run_asmPBS hpending hu
  refine ⟨u, ?_, hrest, hpos, ?_, fun k hk => ?_⟩
  · rw [run_succ_of_step hstep, hrun]
  · rw [hresults, frameResult_buildFrame]
  · rw [hobuf, State.setPending_obuf, hread k hk]

end Sys2Proof.Machine
end

section
/-! SUPPORT. The numeric encoding of results (spec/30_encoding.md R75), O37. -/

namespace Sys2Proof.Machine

/-! ### The Parser's ports -/

/-- The table has exactly one code for a variant it names (R10, D7), so `code(v)` is the code received. -/
theorem codeOf_of_lookup {t : CommandTable} {c : Byte} {v : Variant} (h : t.lookup c = some v) :
    codeOf t v = some c := by
  obtain ⟨e, -, hunique⟩ := t.unique v (t.closed c v h)
  have hc : c ∈ (List.range 256).map (BitVec.ofNat 8) :=
    List.mem_map.mpr ⟨c.toNat, List.mem_range.mpr c.isLt, BitVec.ofNat_toNat 8 c⟩
  have hfound : (codeOf t v).isSome = true := List.find?_isSome.mpr ⟨c, hc, by simp [h]⟩
  obtain ⟨d, hd⟩ := Option.isSome_iff_exists.mp hfound
  have hlookup : t.lookup d = some v := by simpa using List.find?_some hd
  rw [hd, hunique d hlookup, hunique c h]

/-- A known command is the variant of its code with the parameter received (R112). -/
theorem decodeMessage_eq_known_iff {t : CommandTable} {c : Byte} {w q : Word16} {v : Variant} :
    decodeMessage t c w = .known v q ↔ t.lookup c = some v ∧ w = q := by
  unfold decodeMessage
  cases t.lookup c <;> simp

/-- A Complete carries the message of the code and the parameter buffered (R110, R112). -/
theorem message_of_processByte_complete {t : CommandTable} {n : Nat} {b : Byte} {p : Parser} {m : Message}
    (h : (p.processByte t n b).2 = .complete m) :
    m = decodeMessage t p.buf[3] (wordOfBytes p.buf[5] p.buf[6]) := by
  rw [processByte_awaitEnd t n b (pos_of_processByte_complete h)] at h
  rcases (awaitEnd_cases t n b p).2 with ⟨e, -⟩ | ⟨e, -⟩ | ⟨e, -⟩
  · exact nomatch e.symm.trans h
  · exact nomatch e.symm.trans h
  · exact (ParseResult.complete.inj (e.symm.trans h)).symm

/-- A Host reads back the result on the ports, if its message is that of the code and the parameter shown. -/
theorem ParserOutputs.read_ofResult {t : CommandTable} {c : Byte} {w : Word16} {r : ParseResult}
    (hr : ∀ m, r = .complete m → m = decodeMessage t c w) (n : Nat) :
    (ParserOutputs.ofResult n c w r).read t = .ok [.parse r] := by
  rcases r with _ | m | (_ | _)
  · rfl
  · cases m with
    | known v q =>
      obtain ⟨hv, rfl⟩ := decodeMessage_eq_known_iff.mp (hr _ rfl).symm
      have hm : decodeMessage t c w = .known v w := decodeMessage_eq_known_iff.mpr ⟨hv, rfl⟩
      simp [ParserOutputs.read, ParserOutputs.ofResult, hm]
    | unknownCommand d => rfl
  · rfl
  · rfl

/-- A Host reads the result of PROCESS_BYTE from the ports after the edge with its byte. -/
theorem read_parserEdge_offer (t : CommandTable) (n : Nat) (b : Byte) (p : Parser) :
    (parserEdge t n (Pins.offer b) p).2.read t = .ok [.parse (p.processByte t n b).2] :=
  ParserOutputs.read_ofResult (fun _ => message_of_processByte_complete) n

/-- `msg_code` of a known command is its variant's code (R75). -/
theorem codeOf_of_processByte_known {t : CommandTable} {n : Nat} {b : Byte} {p : Parser} {v : Variant} {q : Word16}
    (h : (p.processByte t n b).2 = .complete (.known v q)) : codeOf t v = some p.buf[3] :=
  codeOf_of_lookup (decodeMessage_eq_known_iff.mp (message_of_processByte_complete h).symm).1

/-! ### The Encoder's ports -/

/-- The result of SERIALIZE depends on what the port shows of the capacity only (R76, R91). -/
@[simp] theorem serResult_portCap (cap : Nat) : serResult (portCap cap).toNat = serResult cap :=
  if_congr (toNat_portCap_lt_ten cap) rfl rfl

theorem serResult_of_ten_le {cap : Nat} (h : 10 ≤ cap) : serResult cap = .ok 10 :=
  if_neg (Nat.not_lt.mpr h)

theorem serResult_of_lt_ten {cap : Nat} (h : cap < 10) : serResult cap = .err .bufferTooSmall :=
  if_pos h

@[simp] theorem encoderEdge_request (n : Nat) (code : Byte) (param : Word16) (cap : Nat) :
    encoderEdge n (Pins.request code param cap) =
      EncoderOutputs.ofResult n (buildFrame code param) (serResult cap) := by
  rw [← serResult_portCap cap]
  rfl

@[simp] theorem afterSerialize_encoderOut (code : Byte) (param : Word16) (s : State) :
    (afterSerialize code param s).encoderOut =
      EncoderOutputs.ofResult s.draws (buildFrame code param) (serResult s.cap) :=
  encoderEdge_request s.draws code param s.cap

/-- Settles O37: each row of R75 is one constructor of the result, and the Encoder's two are those of the capacity. -/
theorem resultsOnThePorts : Obligations.ResultsOnThePorts := by
  refine ⟨fun t n b p r o hr ho => ?parser, fun b x s => ⟨_, exec_processByte b x s, rfl, rfl⟩,
    fun code param s => ⟨_, exec_serialize code param s, ?encoder⟩⟩
  case parser =>
    obtain ⟨hvalid, hkind⟩ := ParserOutputs.ofResult_shows n p.buf[3] (wordOfBytes p.buf[5] p.buf[6]) r
    rw [parserEdge_offer, ← hr] at ho
    subst ho
    refine ⟨hvalid, hkind, ?incomplete, ?known, ?unknown, ?framing, ?checksum⟩
    case incomplete => rintro rfl; rfl
    case known => rintro v q rfl; exact ⟨rfl, rfl, rfl, codeOf_of_processByte_known hr.symm, rfl⟩
    case unknown => rintro c rfl; exact ⟨rfl, rfl, rfl, rfl⟩
    case framing => rintro rfl; exact ⟨rfl, rfl⟩
    case checksum => rintro rfl; exact ⟨rfl, rfl⟩
  case encoder =>
    rw [afterSerialize_results, afterSerialize_encoderOut, afterSerialize_obuf]
    rcases Nat.lt_or_ge s.cap 10 with h | h
    · rw [serResult_of_lt_ten h]
      exact ⟨rfl, by simp, fun _ => ⟨rfl, rfl⟩⟩
    · rw [serResult_of_ten_le h]
      refine ⟨rfl, fun _ => ⟨rfl, rfl, fun k hk => ?_⟩, by simp⟩
      rw [read_serializeInto h s.draws code param s.obuf hk, Frame.bytes_toWord _ hk]
      rfl

end Sys2Proof.Machine
end

section
/-! SUPPORT. One edge the Host drives by itself (spec/30_encoding.md R77 to R80), O38 to O41. -/

namespace Sys2Proof.Machine

/-! ### An edge the Host drives by itself -/

/-- The state an edge leaves. -/
def afterEdge (pins : Pins) (s : State) : State :=
  ((s.edge pins).setCap (some (requestedCap pins s.cap))).setResults []

section
variable (pins : Pins) (s : State)

@[simp] theorem afterEdge_parser :
    (afterEdge pins s).parser = (parserEdge Config.commands s.draws pins s.parser).1 := rfl

@[simp] theorem afterEdge_parserOut :
    (afterEdge pins s).parserOut = (parserEdge Config.commands s.draws pins s.parser).2 := rfl

@[simp] theorem afterEdge_encoderOut : (afterEdge pins s).encoderOut = encoderEdge s.draws pins := rfl

@[simp] theorem afterEdge_obuf : (afterEdge pins s).obuf = s.obuf := rfl

@[simp] theorem afterEdge_cap : (afterEdge pins s).cap = requestedCap pins s.cap := rfl

@[simp] theorem afterEdge_pending : (afterEdge pins s).pending = s.pending := rfl

end

/-- The forward direction of the edge case of `step_cases`. -/
theorem step_of_pending_edge {s : State} {pins : Pins} {rest : List Event} (hp : s.pending = .edge pins :: rest) :
    step s = .next (afterEdge pins (s.setPending rest)) := by
  simp only [step, hp]
  rfl

/-! ### The units at an edge, by the inputs asserted (R77 to R80) -/

section
variable {pins : Pins}

theorem parserEdge_of_rst (hr : pins.rst = true) (t : CommandTable) (n : Nat) (p : Parser) :
    parserEdge t n pins p = (Parser.discarded n, ParserOutputs.quiet n) := by
  simp [parserEdge, hr]

theorem parserEdge_of_clear (hr : pins.rst = false) (hc : pins.clear = true) (t : CommandTable) (n : Nat) (p : Parser) :
    parserEdge t n pins p = (Parser.discarded n, ParserOutputs.quiet n) := by
  simp [parserEdge, hr, hc, Parser.clear]

theorem parserEdge_of_inValid (hr : pins.rst = false) (hc : pins.clear = false) (hv : pins.inValid = true)
    (t : CommandTable) (n : Nat) (p : Parser) :
    parserEdge t n pins p = parserEdge t n (Pins.offer pins.inByte) p := by
  rw [parserEdge_offer]
  simp [parserEdge, hr, hc, hv]

theorem parserEdge_of_no_input (hr : pins.rst = false) (hc : pins.clear = false) (hv : pins.inValid = false)
    (t : CommandTable) (n : Nat) (p : Parser) : parserEdge t n pins p = (p, ParserOutputs.quiet n) := by
  simp [parserEdge, hr, hc, hv]

theorem encoderEdge_of_request (hr : pins.rst = false) (hq : pins.encReq = true) (n : Nat) :
    encoderEdge n pins =
      EncoderOutputs.ofResult n (buildFrame pins.encCode pins.encParam) (serResult pins.encCap.toNat) := by
  simp [encoderEdge, hr, hq]

theorem encoderEdge_of_no_request (h : pins.rst = true ∨ pins.encReq = false) (n : Nat) :
    encoderEdge n pins = EncoderOutputs.quiet n := by
  rcases h with h | h <;> simp [encoderEdge, h]

/-- A reset edge takes no other input: every one leaves the same state (R79). -/
theorem afterEdge_of_rst (hr : pins.rst = true) (s : State) : afterEdge pins s = afterEdge Pins.reset s := by
  have hparser : parserEdge Config.commands s.draws pins s.parser =
      parserEdge Config.commands s.draws Pins.reset s.parser :=
    (parserEdge_of_rst hr _ _ _).trans (parserEdge_of_rst rfl _ _ _).symm
  have hencoder : encoderEdge s.draws pins = encoderEdge s.draws Pins.reset :=
    (encoderEdge_of_no_request (.inl hr) _).trans (encoderEdge_of_no_request (.inl rfl) _).symm
  have hcap : requestedCap pins s.cap = requestedCap Pins.reset s.cap :=
    (requestedCap_of_no_request (.inr hr) _).trans (requestedCap_of_no_request (.inr rfl) _).symm
  rw [afterEdge, afterEdge, State.edge, State.edge, hparser, hencoder, hcap]

end

section
variable {p q : Pins} (hr : p.rst = q.rst)
include hr

/-- The Parser does not see the Encoder's inputs (R79). -/
theorem parserEdge_congr (hc : p.clear = q.clear) (hv : p.inValid = q.inValid) (hb : p.inByte = q.inByte)
    (t : CommandTable) (n : Nat) (r : Parser) : parserEdge t n p r = parserEdge t n q r := by
  simp only [parserEdge, hr, hc, hv, hb]

/-- The Encoder does not see the Parser's inputs (R79). -/
theorem encoderEdge_congr (hq : p.encReq = q.encReq) (hc : p.encCode = q.encCode) (hp : p.encParam = q.encParam)
    (hcap : p.encCap = q.encCap) (n : Nat) : encoderEdge n p = encoderEdge n q := by
  simp only [encoderEdge, hr, hq, hc, hp, hcap]

end

/-! ### The statements about one edge -/

/-- Settles O38: with `in_valid` the edge is that of the offered byte, and otherwise that of IDLE. -/
theorem parserCycle : Obligations.ParserCycle := by
  intro pins rest s hp hr hc
  refine ⟨_, _, step_of_pending_edge hp, exec_processByte pins.inByte 0 _, fun hv => ?_, fun hv => ?_⟩
  · have hread := read_parserEdge_offer Config.commands s.draws pins.inByte s.parser
    have hedge := parserEdge_of_inValid hr hc hv Config.commands s.draws s.parser
    rw [← hedge] at hread
    refine ⟨congrArg Prod.fst hedge, ?_, hread⟩
    exact (congrArg (ParserOutputs.resValid ·.2) hedge).trans (ParserOutputs.ofResult_shows _ _ _ _).1
  · have hedge := parserEdge_of_no_input hr hc hv Config.commands s.draws s.parser
    exact ⟨congrArg Prod.fst hedge, congrArg (ParserOutputs.resValid ·.2) hedge⟩

/-- Settles O39: `clear` discards the candidate frame as CLEAR does. -/
theorem clearCycle : Obligations.ClearCycle := by
  intro pins rest s hp hr hc
  have hedge := parserEdge_of_clear hr hc Config.commands s.draws s.parser
  have hparser : (afterEdge pins (s.setPending rest)).parser = Parser.discarded s.draws := congrArg Prod.fst hedge
  exact ⟨_, _, step_of_pending_edge hp, rfl, hparser, congrArg Parser.pos hparser,
    congrArg (ParserOutputs.resValid ·.2) hedge⟩

/-- Settles O41: SERIALIZE with the capacity presented is an edge with the same request. -/
theorem encoderCycle : Obligations.EncoderCycle := by
  intro pins rest s hp
  refine ⟨_, _, step_of_pending_edge hp, exec_serialize pins.encCode pins.encParam _, fun hr hq => ?_, fun h => ?_⟩
  · obtain ⟨hdone, hread⟩ := EncoderOutputs.read_ofResult s.draws (buildFrame pins.encCode pins.encParam)
      pins.encCap.toNat
    rw [afterEdge_encoderOut, encoderEdge_of_request hr hq, afterSerialize_encoderOut, afterSerialize_results]
    exact ⟨rfl, hdone, hread⟩
  · rw [afterEdge_encoderOut, encoderEdge_of_no_request h, EncoderOutputs.quiet_encDone]

/-- Settles O40: `rst` and `clear` fix what the edge does to the Parser, and each unit is a function of its own inputs
and `rst`. -/
theorem edgePriorityAndIndependence : Obligations.EdgePriorityAndIndependence := by
  intro p q rest s hr
  refine ⟨_, _, step_of_pending_edge rfl, step_of_pending_edge rfl, fun hp => ?rst, fun hp hpc hqc => ?clear,
    fun hc hv hb => ?parser, fun hq hc hp hcap => encoderEdge_congr hr hq hc hp hcap s.draws⟩
  case rst =>
    have hedge := parserEdge_of_rst hp Config.commands s.draws s.parser
    refine ⟨?_, congrArg (Parser.pos ·.1) hedge, congrArg (ParserOutputs.resValid ·.2) hedge⟩
    rw [afterEdge_of_rst hp, afterEdge_of_rst (hr.symm.trans hp)]
    rfl
  case clear =>
    have hedge := parserEdge_of_clear hp hpc Config.commands s.draws s.parser
    have hsame := hedge.trans (parserEdge_of_clear (hr.symm.trans hp) hqc Config.commands s.draws s.parser).symm
    exact ⟨congrArg Prod.fst hsame, congrArg Prod.snd hsame, congrArg (Parser.pos ·.1) hedge,
      congrArg (ParserOutputs.resValid ·.2) hedge⟩
  case parser =>
    have hsame := parserEdge_congr hr hc hv hb Config.commands s.draws s.parser
    exact ⟨congrArg Prod.fst hsame, congrArg Prod.snd hsame⟩

end Sys2Proof.Machine
end

section
/-! SUPPORT. The signal-level form refines the operations (92_eei_decisions.md D1, D2; spec/30_encoding.md R76), O45 and
O46. -/

namespace Sys2Proof.Machine

@[simp] theorem ParserOutputs.read_quiet (t : CommandTable) (n : Nat) : (ParserOutputs.quiet n).read t = .ok [] := rfl

@[simp] theorem EncoderOutputs.read_quiet (n : Nat) : (EncoderOutputs.quiet n).read = [] := rfl

/-- The forward direction of the reading case of `step_cases`. -/
theorem step_of_pending_sample {s : State} {rest : List Event} {rs : List OpResult} (hp : s.pending = .sample :: rest)
    (hread : s.parserOut.read Config.commands = .ok rs) :
    step s = .next ((s.setPending rest).setResults (rs ++ s.encoderOut.read)) := by
  simp only [step, hp, runSample, State.setPending_parserOut, hread, State.setPending_encoderOut]

/-- The Host's copy after a SERIALIZE that succeeded: the bytes of `enc_frame` (R76, R90). -/
theorem step_of_pending_copyFrame_ok {s : State} {rest : List Event} (hp : s.pending = .copyFrame :: rest)
    (hdone : s.encoderOut.encDone = true) (hstatus : s.encoderOut.encStatus = false) :
    step s = .next (((s.setPending rest).setObuf
      (s.obuf.writeBytes 0 (Frame.ofWord s.encoderOut.encFrame).bytes)).setResults []) := by
  simp [step, hp, runCopyFrame, hdone, hstatus]

/-- The Host's copy after a BufferTooSmall: every byte of the buffer unspecified (R76, R91). -/
theorem step_of_pending_copyFrame_tooSmall {s : State} {rest : List Event} (hp : s.pending = .copyFrame :: rest)
    (hdone : s.encoderOut.encDone = true) (hstatus : s.encoderOut.encStatus = true) :
    step s = .next (((s.setPending rest).setObuf (s.obuf.havoc s.draws s.cap)).nextDraw.setResults []) := by
  simp [step, hp, runCopyFrame, hdone, hstatus]

/-- Settles O45: the edge of PROCESS_BYTE puts its result on the ports, from which the Host reads it back. -/
theorem offerThenSampleRefinesProcessByte : Obligations.OfferThenSampleRefinesProcessByte := by
  intro b x rest s hp
  refine ⟨_, _, _, step_of_pending_edge hp,
    step_of_pending_sample rfl (read_parserEdge_offer Config.commands s.draws b s.parser),
    exec_processByte b x _, ?_⟩
  rw [afterEdge_encoderOut, encoderEdge_offer, EncoderOutputs.read_quiet]
  rfl

/-- In a buffer that is too small SERIALIZE leaves every byte unspecified (R90, R91). -/
theorem serializeInto_of_lt_ten {cap : Nat} (h : cap < 10) (n : Nat) (code : Byte) (param : Word16) (m : Memory) :
    serializeInto n code param cap m = m.havoc n cap :=
  if_pos h

theorem Memory.read_havoc_below {cap j : Nat} (h : j < cap) (n : Nat) (m : Memory) :
    (Memory.havoc n cap m).read j = some (Config.freeObufByte n j) := by
  rw [Memory.read_havoc, if_pos h]

theorem Memory.read_havoc_beyond {cap j : Nat} (h : cap ≤ j) (n : Nat) (m : Memory) :
    (Memory.havoc n cap m).read j = m.read j := by
  rw [Memory.read_havoc, if_neg (Nat.not_lt.mpr h)]

/-- An edge with a request of the Host's capacity shows the result of SERIALIZE and leaves everything else. -/
theorem step_of_pending_request {s : State} {code : Byte} {param : Word16} {rest : List Event}
    (hp : s.pending = .edge (Pins.request code param s.cap) :: rest) :
    ∃ t, step s = .next t ∧ t.parser = s.parser ∧ t.parserOut.read Config.commands = .ok [] ∧
      t.encoderOut = EncoderOutputs.ofResult s.draws (buildFrame code param) (serResult s.cap) ∧
      t.cap = s.cap ∧ t.pending = rest ∧ t.obuf = s.obuf :=
  ⟨_, step_of_pending_edge hp, rfl, ParserOutputs.read_quiet _ _, encoderEdge_request _ code param s.cap,
    requestedCap_request code param s.cap, rfl, rfl⟩

/-- While the outputs show the result of a SERIALIZE, the Host's copy does to `obuf` what SERIALIZE does (R76, R90), and
leaves everything else. -/
theorem step_of_pending_copyFrame {s : State} {rest : List Event} {n : Nat} {code : Byte} {param : Word16}
    (hp : s.pending = .copyFrame :: rest)
    (ho : s.encoderOut = EncoderOutputs.ofResult n (buildFrame code param) (serResult s.cap)) :
    ∃ t, step s = .next t ∧ t.parser = s.parser ∧ t.parserOut = s.parserOut ∧ t.encoderOut = s.encoderOut ∧
      t.cap = s.cap ∧ t.pending = rest ∧ t.obuf = serializeInto s.draws code param s.cap s.obuf := by
  rcases Nat.lt_or_ge s.cap 10 with hcap | hcap
  · rw [serResult_of_lt_ten hcap] at ho
    rw [serializeInto_of_lt_ten hcap]
    exact ⟨_, step_of_pending_copyFrame_tooSmall hp (by rw [ho]; rfl) (by rw [ho]; rfl), rfl, rfl, rfl, rfl, rfl, rfl⟩
  · rw [serResult_of_ten_le hcap] at ho
    have hframe : Frame.ofWord s.encoderOut.encFrame = buildFrame code param := by
      rw [ho]
      exact Frame.ofWord_toWord _
    rw [serializeInto_of_ten_le hcap, ← hframe]
    exact ⟨_, step_of_pending_copyFrame_ok hp (by rw [ho]; rfl) (by rw [ho]; rfl), rfl, rfl, rfl, rfl, rfl, rfl⟩

/-- Settles O46: the edge leaves the outputs of SERIALIZE and its capacity, and the copy its effect on `obuf`, under draws
of its own. -/
theorem requestThenCopyRefinesSerialize : Obligations.RequestThenCopyRefinesSerialize := by
  intro code param rest s hp
  obtain ⟨t, hedge, htparser, htread, htout, htcap, htpending, htobuf⟩ := step_of_pending_request hp
  obtain ⟨u, hcopy, huparser, huparserOut, huout, hucap, hupending, huobuf⟩ :=
    step_of_pending_copyFrame htpending (htcap ▸ htout)
  have hresults : u.encoderOut.read = [.serialize (serResult s.cap)] := by
    rw [huout, htout]
    exact (EncoderOutputs.read_ofResult _ _ _).2
  have huread : u.parserOut.read Config.commands = .ok [] := by rw [huparserOut, htread]
  rw [htcap, htobuf] at huobuf
  refine ⟨t, u, _, _, hedge, hcopy, step_of_pending_sample hupending huread,
    exec_serialize code param _, hresults, huparser.trans htparser, ?encoderOut, hucap.trans htcap, rfl,
    fun hcap a => ?large, fun hcap a => ?small⟩
  case encoderOut =>
    rw [afterSerialize_encoderOut]
    exact huout.trans htout
  case large =>
    rw [afterSerialize_obuf, State.setResults_obuf, State.setPending_obuf, huobuf, serializeInto_of_ten_le hcap,
      serializeInto_of_ten_le hcap]
  case small =>
    rw [afterSerialize_obuf, State.setResults_obuf, State.setPending_obuf, huobuf, serializeInto_of_lt_ten hcap,
      serializeInto_of_lt_ten hcap]
    refine ⟨fun ha => ?_, fun ha => ⟨_, _, Memory.read_havoc_below ha _ _, Memory.read_havoc_below ha _ _⟩⟩
    simp only [Memory.read_havoc_beyond ha, and_self]

end Sys2Proof.Machine
end

section
/-! SUPPORT. The fields no operation reads, and IDLE (spec/30_encoding.md R73), O8. -/

namespace Sys2Proof.Machine

/-- Settles O8: the decoder rejects no HOSTOP word, no meaning is given the ignored fields, and the edge of IDLE leaves the
Parser and all that is the Host's. -/
theorem ignoredFieldsAndIdle : Obligations.IgnoredFieldsAndIdle :=
  ⟨fun w => ⟨decodeHostop w, rfl⟩, fun _ _ _ _ => rfl, fun _ _ _ => rfl, fun _ _ _ => rfl,
    fun _ _ => ⟨_, rfl, rfl, ⟨fun _ => rfl, rfl, rfl⟩, rfl⟩⟩

end Sys2Proof.Machine
end

section
/-! SUPPORT. The checksum in numbers (spec/40_codec.md R85 to R87), O25 to O27. -/

namespace Sys2Proof.Machine

section
variable (b1 b2 b3 b4 b5 b6 : Byte)

theorem toNat_checksum :
    (checksum b1 b2 b3 b4 b5 b6).toNat = (65536 - byteSum b1 b2 b3 b4 b5 b6) % 65536 := by
  rw [checksum, toNat_neg16, toNat_sum16]

/-- Six times 0xFF (R86). -/
theorem byteSum_le : byteSum b1 b2 b3 b4 b5 b6 ≤ 0x5FA := by
  unfold byteSum
  omega

theorem byteSum_eq_zero_iff :
    byteSum b1 b2 b3 b4 b5 b6 = 0 ↔ b1 = 0 ∧ b2 = 0 ∧ b3 = 0 ∧ b4 = 0 ∧ b5 = 0 ∧ b6 = 0 := by
  simp only [byteSum, Nat.add_eq_zero_iff, and_assoc, ← BitVec.toNat_inj, BitVec.ofNat_eq_ofNat, BitVec.toNat_zero]

/-- The sum of six bytes is too small for its negation to be 0 unless it is 0 itself (R86). -/
theorem checksum_eq_zero_iff : checksum b1 b2 b3 b4 b5 b6 = 0 ↔ byteSum b1 b2 b3 b4 b5 b6 = 0 := by
  have hle := byteSum_le b1 b2 b3 b4 b5 b6
  rw [← BitVec.toNat_inj, toNat_checksum, BitVec.ofNat_eq_ofNat, BitVec.toNat_zero]
  omega

/-- With version and length fixed the sum is 0x105 and the four bytes that vary (R86). -/
theorem byteSum_version_length :
    byteSum 0xFF 0x06 b3 b4 b5 b6 = 0x105 + b3.toNat + b4.toNat + b5.toNat + b6.toNat := rfl

end

/-- Settles O25: the sum that R14 negates does not wrap. -/
theorem checksumIsNegatedSum : Obligations.ChecksumIsNegatedSum := toNat_checksum

/-- Settles O26: the sum does not wrap, and with version and length fixed it is at least 0x105, so that its negation is
65536 less the sum. -/
theorem checksumRange : Obligations.ChecksumRange := by
  refine ⟨fun b1 b2 b3 b4 b5 b6 => ⟨toNat_sum16 .., byteSum_le .., ?_⟩, fun b3 b4 b5 b6 => ?_⟩
  · rw [checksum_eq_zero_iff, byteSum_eq_zero_iff]
  · rw [toNat_sum16, toNat_checksum, byteSum_version_length]
    omega

/-- Settles O27: sum and checksum are below 65536, so their total is a multiple of it exactly when `c` is 65536 less the
sum, or both are 0. -/
theorem checksumEquivalentTest : Obligations.ChecksumEquivalentTest := by
  intro b1 b2 b3 b4 b5 b6 c
  have hle := byteSum_le b1 b2 b3 b4 b5 b6
  rw [← BitVec.toNat_inj, toNat_checksum, toNat_sum16]
  omega

end Sys2Proof.Machine
end

section
/-! SUPPORT. The frame of the Encoder in numbers (spec/40_codec.md R89, R94), O31. -/

namespace Sys2Proof.Machine

/-- The sum of the bytes at offsets 1 to 6 of `frame(code, param)`: 0x105 + code + ph + pl (R94). -/
def sentSum (code : Byte) (param : Word16) : Nat := 0x105 + code.toNat + param.toNat / 256 + param.toNat % 256

theorem highByte_eq_ofNat (v : Word16) : highByte v = BitVec.ofNat 8 (v.toNat / 256) := by
  apply BitVec.eq_of_toNat_eq
  rw [toNat_highByte, BitVec.toNat_ofNat]
  omega

theorem lowByte_eq_ofNat (v : Word16) : lowByte v = BitVec.ofNat 8 v.toNat :=
  BitVec.eq_of_toNat_eq (toNat_lowByte v)

section
variable (code : Byte) (param : Word16)

/-- The least sum is that of three zero bytes, the greatest that of three bytes 0xFF (R94). -/
theorem sentSum_bounds : 0x105 ≤ sentSum code param ∧ sentSum code param ≤ 0x402 := by
  unfold sentSum
  omega

theorem byteSum_buildFrame :
    byteSum Config.version Config.lengthByte code Config.feedbackTx (highByte param) (lowByte param) =
      sentSum code param := by
  have h := byteSum_version_length code 0 (highByte param) (lowByte param)
  rw [toNat_highByte, toNat_lowByte] at h
  exact h

theorem toNat_frameSum_buildFrame : (frameSum (buildFrame code param)).toNat = sentSum code param :=
  (toNat_sum16 ..).trans (byteSum_buildFrame code param)

/-- The sum is not 0, so the checksum is 65536 less the sum (R94). -/
theorem toNat_checksum_buildFrame :
    (checksum Config.version Config.lengthByte code Config.feedbackTx (highByte param) (lowByte param)).toNat =
      65536 - sentSum code param := by
  have hbounds := sentSum_bounds code param
  rw [toNat_checksum, byteSum_buildFrame]
  omega

theorem toNat_frameChecksum_buildFrame :
    (frameChecksum (buildFrame code param)).toNat = 65536 - sentSum code param := by
  rw [← toNat_checksum_buildFrame]
  exact congrArg BitVec.toNat (wordOfBytes_bytes _)

theorem checksumHigh_buildFrame :
    (buildFrame code param).checksumHigh = BitVec.ofNat 8 ((65536 - sentSum code param) / 256) := by
  rw [← toNat_checksum_buildFrame]
  exact highByte_eq_ofNat _

theorem checksumLow_buildFrame :
    (buildFrame code param).checksumLow = BitVec.ofNat 8 (65536 - sentSum code param) := by
  rw [← toNat_checksum_buildFrame]
  exact lowByte_eq_ofNat _

/-- The frame SERIALIZE writes, byte for byte in numbers (R89). -/
theorem bytes_buildFrame :
    (buildFrame code param).bytes =
      [0x7E, 0xFF, 0x06, code, 0x00, BitVec.ofNat 8 (param.toNat / 256), BitVec.ofNat 8 param.toNat,
        BitVec.ofNat 8 ((65536 - sentSum code param) / 256), BitVec.ofNat 8 (65536 - sentSum code param), 0xEF] := by
  rw [← highByte_eq_ofNat, ← lowByte_eq_ofNat, ← checksumHigh_buildFrame, ← checksumLow_buildFrame]
  rfl

/-- A checksum in 0xFBFE..0xFEFB has one of four high bytes (R94). -/
theorem checksumHigh_buildFrame_mem :
    (buildFrame code param).checksumHigh ∈ ([0xFB, 0xFC, 0xFD, 0xFE] : List Byte) := by
  obtain ⟨hleast, hgreatest⟩ := sentSum_bounds code param
  have hlow : 0xFB ≤ (65536 - sentSum code param) / 256 := by omega
  have hhigh : (65536 - sentSum code param) / 256 ≤ 0xFE := by omega
  rw [checksumHigh_buildFrame]
  interval_cases (65536 - sentSum code param) / 256 <;> decide

end

/-- The code that gives a wanted low byte, with parameter 0: the low byte of the checksum is then 0xFB less the code. -/
theorem checksumLow_buildFrame_of_code (low : Byte) : (buildFrame (0xFB - low) 0).checksumLow = low := by
  rw [checksumLow_buildFrame]
  apply BitVec.eq_of_toNat_eq
  simp only [sentSum, BitVec.toNat_ofNat, BitVec.toNat_sub, BitVec.ofNat_eq_ofNat]
  omega

/-- Settles O31: the checksum is 65536 less a sum in 0x105..0x402. -/
theorem serializedChecksumRange : Obligations.SerializedChecksumRange := by
  refine ⟨fun code param => ?_, fun low => ⟨_, _, checksumLow_buildFrame_of_code low⟩⟩
  have hbounds := sentSum_bounds code param
  rw [toNat_frameSum_buildFrame, toNat_frameChecksum_buildFrame]
  exact ⟨rfl, hbounds.2, by omega, by omega, checksumHigh_buildFrame_mem code param⟩

end Sys2Proof.Machine
end

section
/-! SUPPORT. What SERIALIZE does to the Host's buffer (spec/40_codec.md R90 to R92, R95), O28, O29, O30 and O32. -/

namespace Sys2Proof.Machine

/-- Bytes written one after another leave every byte beyond the last of them. -/
theorem Memory.read_writeBytes_beyond (m : Memory) {i j : Nat} {vs : List Byte} (h : i + vs.length ≤ j) :
    (m.writeBytes i vs).read j = m.read j := by
  rw [Memory.read_writeBytes, if_neg fun hj => Nat.not_lt.mpr h hj.2]

/-- A frame at index 0 leaves every byte from ten on. -/
theorem Memory.read_writeBytes_frame_beyond (m : Memory) (f : Frame) {a : Nat} (ha : 10 ≤ a) :
    (m.writeBytes 0 f.bytes).read a = m.read a :=
  m.read_writeBytes_beyond ha

/-- SERIALIZE writes no byte beyond the frame, or beyond a buffer that is too small (R90, R91). -/
theorem read_serializeInto_beyond {cap a : Nat} (ha : min cap 10 ≤ a) (n : Nat) (code : Byte) (param : Word16)
    (m : Memory) : (serializeInto n code param cap m).read a = m.read a := by
  rcases Nat.lt_or_ge cap 10 with hcap | hcap
  · rw [serializeInto_of_lt_ten hcap, Memory.read_havoc_beyond (by omega)]
  · rw [serializeInto_of_ten_le hcap, Memory.read_writeBytes_frame_beyond m _ (by omega)]

section
variable {s : State}

theorem afterSerialize_results_of_ten_le (h : 10 ≤ s.cap) (code : Byte) (param : Word16) :
    (afterSerialize code param s).results = [.serialize (.ok 10)] := by
  rw [afterSerialize_results, serResult_of_ten_le h]

theorem afterSerialize_results_of_lt_ten (h : s.cap < 10) (code : Byte) (param : Word16) :
    (afterSerialize code param s).results = [.serialize (.err .bufferTooSmall)] := by
  rw [afterSerialize_results, serResult_of_lt_ten h]

theorem afterSerialize_read_beyond {a : Nat} (ha : min s.cap 10 ≤ a) (code : Byte) (param : Word16) :
    (afterSerialize code param s).obuf.read a = s.obuf.read a :=
  read_serializeInto_beyond ha s.draws code param s.obuf

theorem afterSerialize_read_frame (h : 10 ≤ s.cap) (code : Byte) (param : Word16) {a : Nat} (ha : a < 10) :
    (afterSerialize code param s).obuf.read a = (buildFrame code param).bytes[a]? :=
  read_serializeInto h s.draws code param s.obuf ha

/-- A success shows the frame on `enc_frame` (R75). -/
theorem afterSerialize_encFrame (h : 10 ≤ s.cap) (code : Byte) (param : Word16) :
    (afterSerialize code param s).encoderOut.encFrame = (buildFrame code param).toWord := by
  rw [afterSerialize_encoderOut, serResult_of_ten_le h]
  rfl

end

/-- Settles O28: what is written ends at the smaller of the capacity and ten, and is the frame of `bytes_buildFrame`. -/
theorem serializeWritesFrame : Obligations.SerializeWritesFrame := by
  intro code param s
  refine ⟨_, exec_serialize code param s, rfl, rfl, rfl, fun hcap => ⟨?_, fun a ha => ?_, fun a ha => ?_⟩,
    fun hcap => ⟨?_, fun a ha => ?_⟩⟩
  · exact afterSerialize_results_of_ten_le hcap code param
  · exact afterSerialize_read_beyond (by omega) code param
  · rw [afterSerialize_read_frame hcap code param ha, bytes_buildFrame, sentSum]
  · exact afterSerialize_results_of_lt_ten hcap code param
  · exact afterSerialize_read_beyond (by omega) code param

/-- Settles O29: the result depends on the capacity alone, so the retry succeeds whatever the failure left. -/
theorem bufferTooSmallIsRecoverable : Obligations.BufferTooSmallIsRecoverable := by
  intro code param s hcap
  refine ⟨_, exec_serialize code param s, ?_, rfl, fun a ha => ?_, fun cap' hcap' =>
    ⟨_, exec_serialize code param _, ?_⟩⟩
  · exact afterSerialize_results_of_lt_ten (by omega) code param
  · exact afterSerialize_read_beyond (by omega) code param
  · exact afterSerialize_results_of_ten_le hcap' code param

/-- Settles O30: `FEEDBACK_TX` is at offset 4 of the frame. -/
theorem feedbackByteAlwaysZero : Obligations.FeedbackByteAlwaysZero := by
  intro code param s hcap
  refine ⟨_, exec_serialize code param s, ?_⟩
  rw [afterSerialize_read_frame hcap code param (by decide), bytes_buildFrame]
  rfl

/-- Settles O32: in both states the buffer and `enc_frame` hold the frame of the operands. -/
theorem encoderIsPure : Obligations.EncoderIsPure := by
  intro code param s s' hcap hcap'
  refine ⟨_, _, exec_serialize code param s, exec_serialize code param s',
    afterSerialize_results_of_ten_le hcap code param, afterSerialize_results_of_ten_le hcap' code param, ?_,
    fun a ha => ?_⟩
  · rw [afterSerialize_encFrame hcap, afterSerialize_encFrame hcap']
  · rw [afterSerialize_read_frame hcap code param ha, afterSerialize_read_frame hcap' code param ha]

end Sys2Proof.Machine
end

section
/-! SUPPORT. The capacity of the Host's buffer over one step (spec/40_codec.md R90, 92_eei_decisions.md D10), O60. -/

namespace Sys2Proof.Machine

/-- No operation changes the capacity or writes at or beyond it. -/
theorem exec_leaves_beyond_cap {i : Instr} {s t : State} (h : exec i s = .next t) :
    t.cap = s.cap ∧ ∀ a, s.cap ≤ a → t.obuf.read a = s.obuf.read a := by
  obtain ⟨u, hu, hcap, -, hread⟩ := onlySerializeWritesObuf i s
  obtain rfl := Host.Outcome.next.inj (hu.symm.trans h)
  refine ⟨hcap, fun a ha => ?_⟩
  by_cases hi : ∃ code param, i = .serialize code param
  · obtain ⟨code, param, rfl⟩ := hi
    obtain rfl := Host.Outcome.next.inj ((exec_serialize code param s).symm.trans hu)
    exact afterSerialize_read_beyond (by omega) code param
  · exact hread (fun code param hs => hi ⟨code, param, hs⟩) a

/-- Under the invariant the Host's copy leaves the capacity and writes nothing at or beyond it: a whole frame is copied
only into ten bytes or more. -/
theorem State.Inv.runCopyFrame_leaves_beyond_cap {s t : State} (hs : s.Inv) (h : Machine.runCopyFrame s = .next t) :
    t.cap = s.cap ∧ ∀ a, s.cap ≤ a → t.obuf.read a = s.obuf.read a := by
  rcases runCopyFrame_cases h with ⟨-, rfl⟩ | ⟨hdone, hstatus, rfl⟩ | ⟨-, -, rfl⟩
  · exact ⟨rfl, fun _ _ => rfl⟩
  · have hcap : ¬ s.cap < 10 := fun hlt => by simp [(hs.capacity hdone).mpr hlt] at hstatus
    exact ⟨rfl, fun a ha => s.obuf.read_writeBytes_frame_beyond _ (by omega)⟩
  · exact ⟨rfl, fun a ha => Memory.read_havoc_beyond ha s.draws s.obuf⟩

/-- Settles O60, by the cases of a step: only an operation, in the capacity given with it, and the copy write `obuf`. -/
theorem nothingWrittenBeyondCapacity : Obligations.NothingWrittenBeyondCapacity := by
  intro s t hs h a ha
  rcases step_cases h with ⟨-, rfl⟩ | ⟨_, cap, rest, _, -, -, he⟩ | ⟨_, _, -, rfl⟩ | ⟨rest, -, hc⟩ | ⟨_, _, -, rfl⟩
  · rfl
  · obtain ⟨hcap, hread⟩ := exec_leaves_beyond_cap he
    exact hread a (hcap ▸ ha)
  · rfl
  · obtain ⟨hcap, hread⟩ := (hs.setPending rest).runCopyFrame_leaves_beyond_cap hc
    exact hread a (hcap ▸ ha)
  · rfl

end Sys2Proof.Machine
end

section
/-! SUPPORT. The ten arms of PROCESS_BYTE, check by check (spec/41_parser.md R101 to R110, R112): O9 to O13 and O15. -/

namespace Sys2Proof.Machine

/-- PROCESS_BYTE leaves everything that is the Host's. -/
theorem hostUntouched_afterByte (b : Byte) (s : State) : HostUntouched s (afterByte b s) := ⟨fun _ => rfl, rfl, rfl⟩

/-- The slots after a byte is buffered. -/
theorem Parser.store_slots (slot next : Pos) (b : Byte) (p : Parser) :
    (p.store slot next b).buf[slot] = b ∧
      ∀ k : Pos, k ≠ slot → (p.store slot next b).buf[k] = p.buf[k] :=
  ⟨Vector.getElem_set_self slot.isLt,
    fun k hk => Vector.getElem_set_ne slot.isLt k.isLt fun h => hk (Fin.ext h.symm)⟩

section
variable {p : Parser} {b : Byte} (t : CommandTable) (n : Nat)

/-! ### The states with a check of one byte (R101 to R103) -/

theorem processByte_startMarker (h : p.pos = 0) (hb : b = Config.startMarker) :
    p.processByte t n b = (p.store 0 1 b, .incomplete) := by
  rw [processByte_awaitStart t n b h, awaitStart, if_pos hb]

theorem processByte_not_startMarker (h : p.pos = 0) (hb : b ≠ Config.startMarker) :
    p.processByte t n b = (p, .incomplete) := by
  rw [processByte_awaitStart t n b h, awaitStart, if_neg hb]

/-- In AwaitStart no byte gives anything but Incomplete. -/
theorem result_awaitStart (h : p.pos = 0) (b : Byte) : (p.processByte t n b).2 = .incomplete := by
  by_cases hb : b = Config.startMarker
  · rw [processByte_startMarker t n h hb]
  · rw [processByte_not_startMarker t n h hb]

theorem processByte_version (h : p.pos = 1) (hb : b = Config.version) :
    p.processByte t n b = (p.store 1 2 b, .incomplete) := by
  rw [processByte_awaitVersion t n b h, awaitVersion, if_pos hb]

theorem processByte_not_version (h : p.pos = 1) (hb : b ≠ Config.version) :
    p.processByte t n b = (Parser.discarded n, .error .framingError) := by
  rw [processByte_awaitVersion t n b h, awaitVersion, if_neg hb]

theorem processByte_lengthByte (h : p.pos = 2) (hb : b = Config.lengthByte) :
    p.processByte t n b = (p.store 2 3 b, .incomplete) := by
  rw [processByte_awaitLength t n b h, awaitLength, if_pos hb]

theorem processByte_not_lengthByte (h : p.pos = 2) (hb : b ≠ Config.lengthByte) :
    p.processByte t n b = (Parser.discarded n, .error .framingError) := by
  rw [processByte_awaitLength t n b h, awaitLength, if_neg hb]

/-! ### AwaitEnd (R110): `awaitEnd_cases` with the checksum test in numbers -/

theorem processByte_not_agrees (h : p.pos = 9) (hc : ¬ p.Agrees) :
    p.processByte t n b = (Parser.discarded n, .error .checksumMismatch) := by
  obtain ⟨hparser, hresult⟩ := awaitEnd_cases t n b p
  rw [processByte_awaitEnd t n b h]
  exact Prod.ext hparser (by simpa [candidate_agrees, hc] using hresult)

theorem processByte_not_endMarker (h : p.pos = 9) (hc : p.Agrees) (hb : b ≠ Config.endMarker) :
    p.processByte t n b = (Parser.discarded n, .error .framingError) := by
  obtain ⟨hparser, hresult⟩ := awaitEnd_cases t n b p
  rw [processByte_awaitEnd t n b h]
  exact Prod.ext hparser (by simpa [candidate_agrees, hc, hb] using hresult)

theorem processByte_endMarker (h : p.pos = 9) (hc : p.Agrees) (hb : b = Config.endMarker) :
    p.processByte t n b =
      (Parser.discarded n, .complete (decodeMessage t p.buf[3] (wordOfBytes p.buf[5] p.buf[6]))) := by
  obtain ⟨hparser, ⟨-, hne⟩ | ⟨-, -, hne⟩ | ⟨hresult, -⟩⟩ := awaitEnd_cases t n b p
  · exact absurd ((candidate_agrees p b).mpr hc) hne
  · exact absurd hb hne
  · rw [processByte_awaitEnd t n b h]
    exact Prod.ext hparser hresult

end

/-- An unknown code is a message of its own (R112). -/
theorem decodeMessage_of_lookup_none {t : CommandTable} {c : Byte} (h : t.lookup c = none) (w : Word16) :
    decodeMessage t c w = .unknownCommand c := by
  rw [decodeMessage, h]

/-! ### The statements -/

/-- Settles O9: `processByte_startMarker` and `processByte_not_startMarker`. -/
theorem awaitStartArm : Obligations.AwaitStartArm := by
  intro b x s h
  refine ⟨_, exec_processByte b x s, ?_, hostUntouched_afterByte b s, fun hb => ?_, fun hb => ?_⟩
  · rw [afterByte_results, result_awaitStart _ _ h]
  · obtain ⟨hslot, hother⟩ := s.parser.store_slots 0 1 b
    rw [afterByte_parser, processByte_startMarker _ _ h hb]
    exact ⟨rfl, hslot.trans hb, hother⟩
  · rw [afterByte_parser, processByte_not_startMarker _ _ h hb]

/-- Settles O10: `processByte_version` and `processByte_not_version`. -/
theorem awaitVersionArm : Obligations.AwaitVersionArm := by
  intro b x s h
  refine ⟨_, exec_processByte b x s, hostUntouched_afterByte b s, fun hb => ?_, fun hb => ?_⟩
  · obtain ⟨hslot, hother⟩ := s.parser.store_slots 1 2 b
    rw [afterByte_results, afterByte_parser, processByte_version _ _ h hb]
    exact ⟨rfl, rfl, hslot.trans hb, hother⟩
  · rw [afterByte_results, afterByte_parser, processByte_not_version _ _ h hb]
    exact ⟨rfl, rfl⟩

/-- Settles O11: `processByte_lengthByte` and `processByte_not_lengthByte`. -/
theorem awaitLengthArm : Obligations.AwaitLengthArm := by
  intro b x s h
  refine ⟨_, exec_processByte b x s, hostUntouched_afterByte b s, fun hb => ?_, fun hb => ?_⟩
  · obtain ⟨hslot, hother⟩ := s.parser.store_slots 2 3 b
    rw [afterByte_results, afterByte_parser, processByte_lengthByte _ _ h hb]
    exact ⟨rfl, rfl, hslot.trans hb, hother⟩
  · rw [afterByte_results, afterByte_parser, processByte_not_lengthByte _ _ h hb]
    exact ⟨rfl, rfl⟩

/-- Settles O12: all six states buffer at `pos` (`processByte_data`). -/
theorem dataArmsBufferAndAdvance : Obligations.DataArmsBufferAndAdvance := by
  intro b x s h3 h8
  have harm := processByte_data Config.commands s.draws b h3 (by omega)
  obtain ⟨hslot, hother⟩ := s.parser.store_slots s.parser.pos ⟨s.parser.pos.val + 1, by omega⟩ b
  refine ⟨_, exec_processByte b x s, hostUntouched_afterByte b s, ?_⟩
  rw [afterByte_results, afterByte_parser, harm]
  exact ⟨rfl, rfl, hslot, hother⟩

/-- Settles O13: the three results of AwaitEnd in the order of its checks, all of which discard the candidate frame. -/
theorem awaitEndArm : Obligations.AwaitEndArm := by
  intro b x s h
  refine ⟨_, exec_processByte b x s, hostUntouched_afterByte b s, ?_, fun hc => ?_, fun hc hb => ?_, fun hc hb => ?_⟩
  · rw [afterByte_parser, processByte_awaitEnd _ _ _ h, (awaitEnd_cases _ _ _ _).1, Parser.discarded_pos]
  · rw [afterByte_results, processByte_not_agrees _ _ h hc]
  · rw [afterByte_results, processByte_not_endMarker _ _ h hc hb]
  · rw [afterByte_results, processByte_endMarker _ _ h hc hb]
    rfl

/-- Settles O15: past both checks of AwaitEnd only the lookup of R112 is left. -/
theorem unknownCodeIsNoError : Obligations.UnknownCodeIsNoError := by
  intro t n p h hc hlookup
  exact (congrArg Prod.snd (processByte_endMarker t n h hc rfl)).trans
    (congrArg _ (decodeMessage_of_lookup_none hlookup _))

end Sys2Proof.Machine
end

section
/-! SUPPORT. Where `pos` goes (spec/41_parser.md R111, R118): O14 and O18. -/

namespace Sys2Proof.Machine

section
variable (t : CommandTable) (n : Nat) (b : Byte) (p : Parser)

/-- Complete and Error leave AwaitStart (R118). -/
theorem pos_of_result_ne_incomplete (h : (p.processByte t n b).2 ≠ .incomplete) :
    (p.processByte t n b).1.pos = 0 := by
  rcases processByte_cases t n b p with ⟨-, -, e⟩ | ⟨_, -, -, -, e⟩ | ⟨-, e⟩ | ⟨-, e⟩
  · exact absurd (congrArg Prod.snd e) h
  · exact absurd (congrArg Prod.snd e) h
  · rw [e, Parser.discarded_pos]
  · rw [e, (awaitEnd_cases t n b p).1, Parser.discarded_pos]

/-- Incomplete advances `pos`, or leaves it at 0 for a discarded byte (R118). -/
theorem pos_of_result_incomplete (h : (p.processByte t n b).2 = .incomplete) :
    (p.processByte t n b).1.pos.val = p.pos.val + 1 ∨
      p.pos = 0 ∧ (p.processByte t n b).1.pos = 0 ∧ b ≠ Config.startMarker := by
  rcases processByte_cases t n b p with ⟨h0, hb, e⟩ | ⟨_, -, -, -, e⟩ | ⟨-, e⟩ | ⟨-, e⟩
  · exact .inr ⟨h0, by rw [e, h0], hb⟩
  · exact .inl (by rw [e, Parser.store_pos])
  · exact nomatch (congrArg Prod.snd e).symm.trans h
  · rw [e] at h
    rcases (awaitEnd_cases t n b p).2 with ⟨hr, -⟩ | ⟨hr, -⟩ | ⟨hr, -⟩ <;> exact nomatch hr.symm.trans h

/-- A byte that does not leave AwaitStart moves `pos` on by one. -/
theorem pos_processByte_eq_zero_or_succ :
    (p.processByte t n b).1.pos = 0 ∨ (p.processByte t n b).1.pos.val = p.pos.val + 1 := by
  by_cases h : (p.processByte t n b).2 = .incomplete
  · rcases pos_of_result_incomplete t n b p h with hs | ⟨-, h0, -⟩
    · exact .inr hs
    · exact .inl h0
  · exact .inl (pos_of_result_ne_incomplete t n b p h)

end

/-- The state one CLEAR leaves. -/
def afterClear (s : State) : State := (s.edge Pins.clearing).setResults []

theorem exec_clear (x : BitVec 24) (s : State) : exec (.clear x) s = .next (afterClear s) := rfl

@[simp] theorem afterClear_pos (s : State) : (afterClear s).parser.pos = 0 := rfl

theorem hostUntouched_afterClear (s : State) : HostUntouched s (afterClear s) := ⟨fun _ => rfl, rfl, rfl⟩

/-- Settles O14: the error leaves AwaitStart, where the next byte is examined. -/
theorem offendingByteConsumed : Obligations.OffendingByteConsumed := by
  intro b c x y s t k ht hr
  obtain rfl := Host.Outcome.next.inj ((exec_processByte b x s).symm.trans ht)
  have herror : (s.parser.processByte Config.commands s.draws b).2 = .error k := by simpa using hr
  have h0 : (afterByte b s).parser.pos = 0 := pos_of_result_ne_incomplete _ _ b s.parser (by simp [herror])
  refine ⟨_, exec_processByte c y _, ?_, fun hc => ?_, fun hc => ?_⟩
  · rw [afterByte_results, result_awaitStart _ _ h0]
  · rw [afterByte_parser, processByte_startMarker _ _ h0 hc, Parser.store_pos]
  · rw [afterByte_parser, processByte_not_startMarker _ _ h0 hc, h0]

/-- Settles O18: `pos_of_result_ne_incomplete` and `pos_of_result_incomplete`; CLEAR discards the candidate frame. -/
theorem posReturnsOrAdvances : Obligations.PosReturnsOrAdvances :=
  ⟨fun b x s => ⟨_, _, exec_processByte b x s, rfl, pos_of_result_ne_incomplete _ _ b s.parser,
    pos_of_result_incomplete _ _ b s.parser⟩, fun x s => ⟨_, exec_clear x s, afterClear_pos s⟩⟩

end Sys2Proof.Machine
end

section
/-! SUPPORT. A frame from AwaitStart, alone, after garbage, after CLEAR, after a stray start marker and after SERIALIZE
(spec/41_parser.md R101, R110, R114, R117, R119): O17, O19, O20, O34 and O36. -/

namespace Sys2Proof.Machine

/-! ### A valid frame (R110) -/

/-- A valid frame that meets the Parser in AwaitStart: nine times Incomplete, then its message. -/
theorem processAll_validFrame {f : Frame} (hf : frameValid f = true) {s : State} (hs : s.parser.pos = 0) :
    ∃ u, processAll f.bytes s = some (u, List.replicate 9 (.parse .incomplete) ++
      [.parse (.complete (decodeMessage Config.commands f.code (frameParam f)))]) ∧ u.parser.pos = 0 := by
  obtain ⟨u, hu, hpos, -⟩ := processAll_frame (structural_of_frameValid hf) hs
  rw [frameResult, if_pos hf] at hu
  exact ⟨u, hu, hpos⟩

/-- Settles O36: FRAME is the stream of its ten bytes (O35), and that stream is `processAll_frame`. -/
theorem frameMeetsParserInAwaitStart : Obligations.FrameMeetsParserInAwaitStart := by
  intro f s hs hf
  obtain ⟨u, hu, hpos, -⟩ := processAll_frame hf hs
  obtain ⟨t, rs, ht, -, hexec, huntouched⟩ := frameIsItsTenBytes f s
  obtain ⟨rfl, rfl⟩ := Prod.mk.inj (Option.some.inj (hu.symm.trans ht))
  exact ⟨_, hexec, hpos, huntouched, rfl⟩

/-! ### CLEAR (R114) -/

/-- Settles O34: after CLEAR the Parser is in AwaitStart, where no slot counts (O22) and a valid frame is decoded. -/
theorem clearDiscardsCandidate : Obligations.ClearDiscardsCandidate := by
  intro x s
  have hpos := afterClear_pos s
  refine ⟨_, exec_clear x s, hpos, rfl, hostUntouched_afterClear s, fun h bs => ?_, fun f hf => ?_⟩
  · obtain ⟨s', t', rs, hs, ht, -⟩ := slotsBeyondPosUnobservable bs s _ (Parser.same_of_start h hpos)
    exact ⟨s', t', rs, hs, ht⟩
  · obtain ⟨u, hu, -⟩ := processAll_validFrame hf hpos
    exact ⟨u, hu⟩

/-! ### Garbage before a frame (R101) -/

/-- Bytes without a start marker are discarded one by one in AwaitStart. -/
theorem processAll_garbage {bs : List Byte} (hbs : Config.startMarker ∉ bs) {s : State} (hs : s.parser.pos = 0) :
    ∃ u, processAll bs s = some (u, List.replicate bs.length (.parse .incomplete)) ∧ u.parser.pos = 0 := by
  induction bs generalizing s with
  | nil => exact ⟨s, rfl, hs⟩
  | cons b bs ih =>
    obtain ⟨hb, hrest⟩ := not_or.mp (List.mem_cons.not.mp hbs)
    have harm := processByte_not_startMarker Config.commands s.draws hs (Ne.symm hb)
    obtain ⟨u, hu, hpos⟩ := ih hrest (s := afterByte b s) (by rw [afterByte_parser, harm, hs])
    exact ⟨u, by rw [processAll_cons, hu, afterByte_results, harm]; rfl, hpos⟩

/-- Settles O20: the garbage leaves AwaitStart, where the frame is decoded. -/
theorem garbageBeforeFrameDiscarded : Obligations.GarbageBeforeFrameDiscarded := by
  intro garbage f s hs hgarbage hf
  obtain ⟨mid, hmid, hmidpos⟩ := processAll_garbage hgarbage hs
  obtain ⟨u, hu, hpos⟩ := processAll_validFrame hf hmidpos
  refine ⟨u, ?_, hpos⟩
  rw [processAll_append hmid hu, ← List.append_assoc, List.replicate_append_replicate]

/-! ### A stray start marker before a frame (R119) -/

/-- A stream too short to reach offset 9 and offer the byte there completes no frame. -/
theorem no_complete_of_short {bs : List Byte} {s u : State} {rs : List OpResult}
    (hlen : s.parser.pos.val + bs.length < 10) (h : processAll bs s = some (u, rs)) (m : Message) :
    OpResult.parse (.complete m) ∉ rs := by
  induction bs generalizing s u rs with
  | nil =>
    obtain ⟨-, rfl⟩ := Prod.mk.inj (Option.some.inj h)
    exact List.not_mem_nil
  | cons b bs ih =>
    rw [List.length_cons] at hlen
    rw [processAll_cons, Option.map_eq_some_iff] at h
    obtain ⟨⟨u', rs'⟩, h', heq⟩ := h
    obtain ⟨-, rfl⟩ := Prod.mk.inj heq
    have hfirst : (s.parser.processByte Config.commands s.draws b).2 ≠ .complete m := fun hm => by
      have h9 : s.parser.pos.val = 9 := congrArg Fin.val (pos_of_processByte_complete hm)
      omega
    have hpos : (afterByte b s).parser.pos.val ≤ s.parser.pos.val + 1 := by
      rcases pos_processByte_eq_zero_or_succ Config.commands s.draws b s.parser with h0 | h1
      · simp [h0]
      · exact h1.le
    have hrest := ih (s := afterByte b s) (by omega) h'
    simpa [hrest] using Ne.symm hfirst

/-- A start marker twice from AwaitStart: Incomplete, FramingError, and AwaitStart again. -/
theorem processAll_startMarker_twice {s : State} (hs : s.parser.pos = 0) :
    ∃ u, processAll [Config.startMarker, Config.startMarker] s =
      some (u, [.parse .incomplete, .parse (.error .framingError)]) ∧ u.parser.pos = 0 := by
  have hfirst := processByte_startMarker Config.commands s.draws hs rfl
  have h1 : (afterByte Config.startMarker s).parser.pos = 1 := by rw [afterByte_parser, hfirst, Parser.store_pos]
  have hsecond := processByte_not_version Config.commands (afterByte Config.startMarker s).draws h1
    (b := Config.startMarker) (by decide)
  refine ⟨afterByte Config.startMarker (afterByte Config.startMarker s), ?_, ?_⟩
  · rw [processAll_cons, processAll_cons, afterByte_results, hfirst, afterByte_results, hsecond]
    rfl
  · rw [afterByte_parser, hsecond, Parser.discarded_pos]

/-- Settles O19: the frame's own start marker is the second of two, and nine bytes are too few for a frame. -/
theorem strayStartLosesFrame : Obligations.StrayStartLosesFrame := by
  intro f s hs hf
  obtain ⟨hstart, -⟩ := f.structural_iff.mp (structural_of_frameValid hf)
  obtain ⟨mid, hmid, hmidpos⟩ := processAll_startMarker_twice hs
  obtain ⟨u, rs, hu, hlength⟩ := processAll_some f.bytes.tail mid
  have hbytes : 0x7E :: f.bytes = [Config.startMarker, Config.startMarker] ++ f.bytes.tail := by
    rw [Frame.bytes, hstart]
    rfl
  refine ⟨u, rs, ?_, hlength, no_complete_of_short ?_ hu⟩
  · rw [hbytes, processAll_append hmid hu]
    rfl
  · rw [hmidpos]
    exact Nat.lt_succ_self 9

/-! ### What SERIALIZE writes (R117) -/

/-- Every variant of a well-formed table has operands (R88, D7), and its code is known as that variant. -/
theorem encOperands_of_mem {t : CommandTable} {v : Variant} (hv : v ∈ t.variants) (p : Word16) :
    ∃ c, encOperands t v p = some (c, if t.hasParam v then p else 0) ∧ t.lookup c = some v := by
  obtain ⟨c, hc, -⟩ := t.unique v hv
  exact ⟨c, by rw [encOperands, codeOf_of_lookup hc, Option.map_some], hc⟩

/-- Settles O17: the ten bytes SERIALIZE writes are a valid frame that meets the Parser in AwaitStart, and the code of a
variant looks up that variant. -/
theorem roundTripOfACommand : Obligations.RoundTripOfACommand := by
  refine ⟨fun code param s hs hcap => ?_, fun t v p hv => ?_⟩
  · obtain ⟨u, hu, hpos, -⟩ := processAll_frame (structural_of_frameValid (frameValid_buildFrame code param))
      (s := afterSerialize code param s) hs
    rw [frameResult_buildFrame] at hu
    exact ⟨_, (buildFrame code param).bytes, u, exec_serialize code param s,
      afterSerialize_results_of_ten_le hcap code param, rfl,
      fun k hk => afterSerialize_read_frame hcap code param hk, hu, hpos⟩
  · obtain ⟨c, hc, hlookup⟩ := encOperands_of_mem hv p
    exact ⟨c, _, hc, decodeMessage_eq_known_iff.mpr ⟨hlookup, rfl⟩⟩

end Sys2Proof.Machine
end

section
/-! SUPPORT. When PROCESS_BYTE completes (spec/41_parser.md R116), in one step and over a stream: O16. -/

namespace Sys2Proof.Machine

/-! ### One step -/

/-- Under the Parser invariant the candidate frame is valid exactly when it passes both checks of AwaitEnd. -/
theorem Parser.Inv.frameValid_candidate_iff {p : Parser} (hp : p.Inv) (h : p.pos = 9) (b : Byte) :
    frameValid (p.candidate b) = true ↔ p.Agrees ∧ b = Config.endMarker := by
  obtain ⟨h0, h1, h2⟩ := hp
  have hstructural : (p.candidate b).structural = true ↔ b = Config.endMarker := by
    simp [Frame.structural_iff, Parser.candidate, h0, h1, h2, h, Config.endMarker]
  rw [frameValid, Bool.and_eq_true, beq_iff_eq, candidate_agrees, hstructural, and_comm]

/-- A byte that completes has passed both checks of AwaitEnd (R110). -/
theorem checks_of_processByte_complete {t : CommandTable} {n : Nat} {b : Byte} {p : Parser} {m : Message}
    (h : (p.processByte t n b).2 = .complete m) : p.Agrees ∧ b = Config.endMarker := by
  rw [processByte_awaitEnd t n b (pos_of_processByte_complete h)] at h
  rcases (awaitEnd_cases t n b p).2 with ⟨e, -⟩ | ⟨e, -⟩ | ⟨-, hc, hb⟩
  · exact nomatch e.symm.trans h
  · exact nomatch e.symm.trans h
  · exact ⟨(candidate_agrees p b).mp hc, hb⟩

/-- PROCESS_BYTE completes exactly at `pos` = 9 on a valid candidate frame (R116). -/
theorem Parser.Inv.processByte_complete_iff {p : Parser} (hp : p.Inv) (t : CommandTable) (n : Nat) (b : Byte)
    (m : Message) : (p.processByte t n b).2 = .complete m ↔
      p.pos = 9 ∧ frameValid (p.candidate b) = true ∧
        m = decodeMessage t p.buf[3] (wordOfBytes p.buf[5] p.buf[6]) := by
  constructor
  · intro hm
    have h9 := pos_of_processByte_complete hm
    exact ⟨h9, (hp.frameValid_candidate_iff h9 b).mpr (checks_of_processByte_complete hm),
      message_of_processByte_complete hm⟩
  · rintro ⟨h9, hvalid, rfl⟩
    obtain ⟨hc, hb⟩ := (hp.frameValid_candidate_iff h9 b).mp hvalid
    rw [processByte_endMarker t n h9 hc hb]

/-! ### The bytes buffered so far (R21) -/

/-- The bytes of the candidate frame buffered so far, in the order of their offsets. -/
def Parser.buffered (p : Parser) : List Byte := p.buf.toList.take p.pos.val

theorem Parser.buffered_of_start {p : Parser} (h : p.pos = 0) : p.buffered = [] := by
  simp [Parser.buffered, h]

theorem Parser.buffered_store {p : Parser} {next : Pos} (hn : next.val = p.pos.val + 1) (b : Byte) :
    (p.store p.pos next b).buffered = p.buffered ++ [b] := by
  simp only [Parser.buffered, Parser.store_pos, Parser.store_buf, Vector.toList_set, hn]
  rw [List.take_succ_eq_append_getElem (by simp), List.take_set_of_le (le_refl _), List.getElem_set_self]

/-- In AwaitEnd the candidate frame is the bytes buffered and the byte offered. -/
theorem Parser.bytes_candidate {p : Parser} (h : p.pos = 9) (b : Byte) :
    (p.candidate b).bytes = p.buffered ++ [b] := by
  apply List.ext_getElem
  · simp [Parser.buffered, h, Frame.bytes]
  · intro k hk _
    have hk10 : k < 10 := hk
    interval_cases k <;> simp [Parser.buffered, h, Frame.bytes, Parser.candidate]

/-! ### A stream (R116) -/

/-- A stream offered from `s` ends in the bytes a Parser has buffered, the first of which was offered in AwaitStart. -/
def EndsInCandidate (bs : List Byte) (s : State) (p : Parser) : Prop :=
  ∃ before mid rs, bs = before ++ p.buffered ∧ processAll before s = some (mid, rs) ∧ mid.parser.pos = 0

/-- A Parser in AwaitStart has buffered nothing yet. -/
theorem endsInCandidate_of_start {bs : List Byte} {s u : State} {rs : List OpResult}
    (h : processAll bs s = some (u, rs)) (hu : u.parser.pos = 0) : EndsInCandidate bs s u.parser :=
  ⟨bs, u, rs, by rw [Parser.buffered_of_start hu, List.append_nil], h, hu⟩

/-- From AwaitStart every stream ends in the bytes it leaves buffered, and keeps the Parser invariant. -/
theorem processAll_endsInCandidate {bs : List Byte} {s u : State} {rs : List OpResult} (hs : s.parser.pos = 0)
    (h : processAll bs s = some (u, rs)) : EndsInCandidate bs s u.parser ∧ u.parser.Inv := by
  induction bs using List.reverseRecOn generalizing u rs with
  | nil =>
    obtain ⟨rfl, -⟩ := Prod.mk.inj (Option.some.inj h)
    exact ⟨endsInCandidate_of_start h hs, Parser.inv_of_start hs⟩
  | append_singleton bs b ih =>
    obtain ⟨v, qs, hv, -⟩ := processAll_some bs s
    obtain ⟨⟨before, mid, rs', hbs, hbefore, hmid⟩, hinv⟩ := ih hv
    obtain ⟨rfl, -⟩ := Prod.mk.inj (Option.some.inj ((processAll_concat hv b).symm.trans h))
    refine ⟨?_, hinv.processByte _ _ b⟩
    rcases pos_processByte_eq_zero_or_succ Config.commands v.draws b v.parser with h0 | hsucc
    · exact endsInCandidate_of_start h h0
    · obtain ⟨next, hn, hstore⟩ := processByte_of_advance hsucc
      refine ⟨before, mid, rs', ?_, hbefore, hmid⟩
      rw [afterByte_parser, hstore, Parser.buffered_store hn, ← List.append_assoc, ← hbs]

/-- Settles O16: one step is `processByte_complete_iff`. A stream that completes ends in the candidate frame, and a valid
frame at the end of a stream that meets the Parser in AwaitStart completes. -/
theorem completeExactlyOnValidFrame : Obligations.CompleteExactlyOnValidFrame := by
  refine ⟨fun b x s hp => ⟨_, exec_processByte b x s, fun m => ?step⟩, fun s bs hs hne => ?stream⟩
  case step =>
    rw [← hp.processByte_complete_iff Config.commands s.draws, afterByte_results, List.singleton_inj,
      OpResult.parse.injEq]
  case stream =>
    obtain ⟨bs, b, rfl⟩ := (List.eq_nil_or_concat' bs).resolve_left hne
    obtain ⟨u, rs, hu, -⟩ := processAll_some bs s
    refine ⟨_, _, processAll_concat hu b, fun m => ⟨fun hm => ?_, ?_⟩⟩
    · obtain ⟨⟨before, mid, rs', hbs, hbefore, hmid⟩, hinv⟩ := processAll_endsInCandidate hs hu
      have hcomplete : (u.parser.processByte Config.commands u.draws b).2 = .complete m := by simpa using hm
      obtain ⟨h9, hvalid, hmessage⟩ := (hinv.processByte_complete_iff _ _ b m).mp hcomplete
      refine ⟨before, u.parser.candidate b, mid, rs', ?_, hvalid, hmessage, hbefore, hmid⟩
      rw [Parser.bytes_candidate h9, ← List.append_assoc, ← hbs]
    · rintro ⟨before, f, mid, rs', hbs, hvalid, rfl, hbefore, hmid⟩
      obtain ⟨v, hv, -⟩ := processAll_validFrame hvalid hmid
      have hall := processAll_concat hu b
      rw [hbs, processAll_append hbefore hv] at hall
      obtain ⟨-, hresults⟩ := Prod.mk.inj (Option.some.inj hall)
      rw [← hresults, ← List.append_assoc, List.getLast?_concat]

end Sys2Proof.Machine
end

section
/-! SUPPORT. The three errors, each at its cause (spec/60_exceptions.md R132, R134): O21. -/

namespace Sys2Proof.Machine

/-! ### The Parser's two errors -/

/-- The causes of a framing error (R132): a wrong byte at offset 1 or 2, or at offset 9 after a checksum that agrees. -/
def Parser.Misframed (p : Parser) (b : Byte) : Prop :=
  p.pos = 1 ∧ b ≠ Config.version ∨ p.pos = 2 ∧ b ≠ Config.lengthByte ∨ p.pos = 9 ∧ p.Agrees ∧ b ≠ Config.endMarker

section
variable (t : CommandTable) (n : Nat) (b : Byte) (p : Parser)

/-- Every error has one of the causes of R132, and the checksum is judged before the end marker (R134). -/
theorem cause_of_processByte_error {k : ParseErrorKind} (h : (p.processByte t n b).2 = .error k) :
    k = .framingError ∧ p.Misframed b ∨ k = .checksumMismatch ∧ p.pos = 9 ∧ ¬ p.Agrees := by
  rcases processByte_cases t n b p with ⟨-, -, e⟩ | ⟨_, -, -, -, e⟩ | ⟨hbyte, e⟩ | ⟨h9, e⟩ <;> rw [e] at h
  · exact nomatch h
  · exact nomatch h
  · exact .inl ⟨(ParseResult.error.inj h).symm, hbyte.imp_right .inl⟩
  · rcases (awaitEnd_cases t n b p).2 with ⟨hr, hc⟩ | ⟨hr, hc, hb⟩ | ⟨hr, -⟩
    · exact .inr ⟨ParseResult.error.inj (h.symm.trans hr), h9, (candidate_agrees p b).not.mp hc⟩
    · exact .inl ⟨ParseResult.error.inj (h.symm.trans hr), .inr (.inr ⟨h9, (candidate_agrees p b).mp hc, hb⟩)⟩
    · exact nomatch h.symm.trans hr

theorem result_eq_framingError_iff : (p.processByte t n b).2 = .error .framingError ↔ p.Misframed b := by
  constructor
  · intro h
    rcases cause_of_processByte_error t n b p h with ⟨-, hcause⟩ | ⟨hk, -⟩
    · exact hcause
    · exact nomatch hk
  · rintro (⟨h1, hb⟩ | ⟨h2, hb⟩ | ⟨h9, hc, hb⟩)
    · rw [processByte_not_version t n h1 hb]
    · rw [processByte_not_lengthByte t n h2 hb]
    · rw [processByte_not_endMarker t n h9 hc hb]

theorem result_eq_checksumMismatch_iff :
    (p.processByte t n b).2 = .error .checksumMismatch ↔ p.pos = 9 ∧ ¬ p.Agrees := by
  constructor
  · intro h
    rcases cause_of_processByte_error t n b p h with ⟨hk, -⟩ | ⟨-, hcause⟩
    · exact nomatch hk
    · exact hcause
  · rintro ⟨h9, hc⟩
    rw [processByte_not_agrees t n h9 hc]

end

/-- PROCESS_BYTE leaves its result on the Parser's ports (R75). -/
@[simp] theorem afterByte_parserOut (b : Byte) (s : State) :
    (afterByte b s).parserOut = ParserOutputs.ofResult s.draws s.parser.buf[3]
      (wordOfBytes s.parser.buf[5] s.parser.buf[6]) (s.parser.processByte Config.commands s.draws b).2 := rfl

/-- After an error the Parser is in AwaitStart (R135) and `res_kind` and `res_err` tell which it was (R75). -/
theorem afterByte_of_error {b : Byte} {s : State} {k : ParseErrorKind}
    (h : (s.parser.processByte Config.commands s.draws b).2 = .error k) :
    (afterByte b s).parserOut.resKind = 0b10 ∧
      (afterByte b s).parserOut.resErr = decide (k = .checksumMismatch) ∧ (afterByte b s).parser.pos = 0 := by
  have hpos : (afterByte b s).parser.pos = 0 := pos_of_result_ne_incomplete _ _ b s.parser (by simp [h])
  rw [afterByte_parserOut, h]
  cases k <;> exact ⟨rfl, rfl, hpos⟩

/-! ### The Encoder's error -/

theorem serResult_eq_bufferTooSmall_iff (cap : Nat) : serResult cap = .err .bufferTooSmall ↔ cap < 10 := by
  rcases Nat.lt_or_ge cap 10 with h | h
  · simp [serResult_of_lt_ten h, h]
  · simp [serResult_of_ten_le h, h]

/-- Settles O21: the result of each operation is one value, and it is each error exactly at that error's cause. -/
theorem errorsExactlyAtTheirCauses : Obligations.ErrorsExactlyAtTheirCauses := by
  refine ⟨fun b x s => ⟨_, _, exec_processByte b x s, rfl, result_eq_framingError_iff _ _ b s.parser,
    result_eq_checksumMismatch_iff _ _ b s.parser, afterByte_of_error, afterByte_of_error⟩, fun code param s =>
    ⟨_, _, exec_serialize code param s, rfl, serResult_eq_bufferTooSmall_iff s.cap, fun h => ?status⟩⟩
  case status =>
    rw [afterSerialize_encoderOut, EncoderOutputs.ofResult_encStatus]
    exact (serResult_eq_bufferTooSmall_iff s.cap).mp h

end Sys2Proof.Machine
end

section
/-! SUPPORT. Where a step stops (spec/60_exceptions.md R130, 93_implementation_defined.md U6): O47, O48 and O57. -/

namespace Sys2Proof.Machine

theorem exec_idle (x : BitVec 24) (s : State) :
    exec (.idle x) s = .next ((s.edge Pins.idle).setResults []) := rfl

/-- Settles O48: the meaning of each instruction is a state. -/
theorem everyOperationCompletes : Obligations.EveryOperationCompletes := by
  intro i s
  cases i with
  | idle x => exact ⟨_, exec_idle x s⟩
  | processByte b x => exact ⟨_, exec_processByte b x s⟩
  | serialize code param => exact ⟨_, exec_serialize code param s⟩
  | clear x => exact ⟨_, exec_clear x s⟩
  | frame f => exact ⟨_, exec_frame f s⟩

/-- A two-bit kind is the reserved one or has a row in R75. -/
theorem resKind_eq_reserved_iff (k : BitVec 2) : k = 0b11 ↔ k ≠ 0b00 ∧ k ≠ 0b01 ∧ k ≠ 0b10 := by
  revert k
  decide

/-- The reserved kind is the only one a Host cannot read (U6). -/
theorem ParserOutputs.read_eq_error_iff (t : CommandTable) (o : ParserOutputs) (f : Fault) :
    o.read t = .error f ↔ o.resValid = true ∧ o.resKind = 0b11 := by
  rw [resKind_eq_reserved_iff, ParserOutputs.read]
  split_ifs with hvalid h0 h1 hknown h2 herr
  · simp [h0]
  · simp [h1]
  · simp [h1]
  · simp [h2]
  · simp [h2]
  · cases f
    exact iff_of_true rfl ⟨hvalid, h0, h1, h2⟩
  · simp [hvalid]

theorem runSample_eq_fault_iff (s : State) (f : Fault) :
    runSample s = .fault f ↔ s.parserOut.read Config.commands = .error f := by
  unfold runSample
  cases s.parserOut.read Config.commands <;> simp

/-- Of all a step can do, only the Host's reading of the ports can fault. -/
theorem step_eq_fault_iff (s : State) (f : Fault) : step s = .fault f ↔
    ∃ rest, s.pending = .sample :: rest ∧ s.parserOut.read Config.commands = .error f := by
  rcases hp : s.pending with _ | ⟨⟨word, cap⟩ | pins | _ | _, rest⟩
  · simp [step, hp]
  · cases hd : decode word with
    | ok i =>
      obtain ⟨t, ht⟩ := everyOperationCompletes i ((s.setPending rest).setCap cap)
      simp [step_of_pending_op hp hd, ht]
    | error e => simp [step, hp, hd]
  · simp [step, hp, runEdge]
  · simp [step, hp, runCopyFrame]
  · simp [step, hp, runSample_eq_fault_iff]

/-- Settles O47: a step faults where the Host reads ports that cannot be read. -/
theorem onlyReservedKindFaults : Obligations.OnlyReservedKindFaults := by
  intro s f
  simp only [step_eq_fault_iff, ParserOutputs.read_eq_error_iff]

/-- Settles O57: under the invariant the reserved kind is not on the ports. -/
theorem noFaultUnderInvariant : Obligations.NoFaultUnderInvariant := by
  intro s f hs hfault
  obtain ⟨_, -, hvalid, hkind⟩ := (onlyReservedKindFaults s f).mp hfault
  exact hs.parserOut hvalid hkind

end Sys2Proof.Machine
end

section
/-! SUPPORT. The reset edge and a Host that waits (spec/70_reset_and_hazards.md R150, R152, R159), O42, O44 and O53. -/

namespace Sys2Proof.Machine

/-! ### The reset edge -/

/-- A pending edge with `rst` is the edge with `rst` alone, whatever else is asserted (R150). -/
theorem step_of_pending_reset {s : State} {pins : Pins} {rest : List Event} (hp : s.pending = .edge pins :: rest)
    (hr : pins.rst = true) : step s = .next (afterEdge Pins.reset (s.setPending rest)) := by
  rw [step_of_pending_edge hp, afterEdge_of_rst hr]

/-- Settles O42: the reset edge discards the candidate frame, and in AwaitStart nothing has been summed. -/
theorem resetEdge : Obligations.ResetEdge := by
  intro pins rest s hp hr
  have hpos : (afterEdge Pins.reset (s.setPending rest)).parser.pos = 0 := rfl
  exact ⟨_, step_of_pending_reset hp hr, hpos, acc_of_pos_le_one (by rw [hpos]; decide), rfl, rfl, rfl, rfl,
    fun _ => rfl⟩

/-- Settles O44: the reset edge, CLEAR and the edge with `clear` each discard the candidate frame, and the last takes
the request. -/
theorem resetAgreesWithClearOnParser : Obligations.ResetAgreesWithClearOnParser := by
  intro pins x s hr
  refine ⟨_, _, _, step_of_pending_reset rfl hr, exec_clear x s, step_of_pending_edge rfl, rfl, rfl, rfl, rfl,
    ?clear, ?request⟩
  case clear =>
    rw [afterEdge_parser, parserEdge_of_clear rfl rfl]
    rfl
  case request =>
    rw [afterEdge_encoderOut, encoderEdge_of_request rfl rfl]
    exact (EncoderOutputs.read_ofResult _ _ _).1

/-! ### A Host that waits -/

theorem step_of_nothing_pending {s : State} (hp : s.pending = []) : step s = .next s := by
  simp only [step, hp]

/-- Settles O53: IDLE leaves the Parser, so the next byte meets it with other draws only, on which neither the result nor
the slots below `pos` depend. -/
theorem stalledFrameWaits : Obligations.StalledFrameWaits := by
  refine ⟨fun s => step_of_nothing_pending, fun x b y s => ?_⟩
  obtain ⟨hsame, hresult⟩ := (Parser.Same.refl s.parser).processByte Config.commands (s.draws + 1) s.draws b
  exact ⟨_, _, _, exec_idle x s, exec_processByte b y _, exec_processByte b y s,
    congrArg ([OpResult.parse ·]) hresult, hsame⟩

end Sys2Proof.Machine
end

section
/-! SUPPORT. Single words decoded (spec/30_encoding.md R69, R74), by the round trip of O2: O6. -/

namespace Sys2Proof

/-- The word an instruction is encoded as decodes to that instruction. -/
theorem decode_of_encode_eq {i : Instr} {c : CodeWord} (h : encode i = c) (hi : i.wellFormed = true) :
    decode c = .ok i := by
  rw [← h]
  exact decodeEncodeRoundTrip i hi

theorem decode_frame_of_not_structural {w : FrameWord} (h : (Frame.ofWord w).structural = false) :
    decode (.frame w) = .error (.notAFrame w) := by
  have hpattern : ¬w &&& frameMask = framePattern := by
    rw [FrameWord.matches_iff, h]
    exact Bool.false_ne_true
  rw [decode, decodeFrame, if_neg hpattern]

/-- Settles O6: eleven of the words are the encodings of their instructions, and V-F3 has another length byte than a
frame. -/
theorem specWordsDecode : Obligations.SpecWordsDecode := by
  refine ⟨?vW1, ?vW2, ?vW3, ?vW4, ?vW5, ?vW6, ?vW7, ?vW8, ?vW9, ?vF1, ?vF3, ?vF4⟩
  case vF3 => exact decode_frame_of_not_structural (by decide)
  all_goals exact decode_of_encode_eq (by decide) (by decide)

end Sys2Proof
end

section
/-! SUPPORT. The draw counter over an operation and over an edge (spec/93_implementation_defined.md U1, U2): O58. -/

namespace Sys2Proof.Machine

/-- Every byte offered takes one edge. -/
theorem offerAll_draws (bs : List Byte) (s : State) : (offerAll bs s).1.draws = s.draws + bs.length := by
  induction bs generalizing s with
  | nil => rfl
  | cons b bs ih =>
    have hb : (offer b s).1.draws = s.draws + 1 := s.edge_draws (Pins.offer b)
    rw [offerAll_cons, ih, hb, List.length_cons]
    omega

@[simp] theorem afterSerialize_draws (code : Byte) (param : Word16) (s : State) :
    (afterSerialize code param s).draws = s.draws + 1 := rfl

@[simp] theorem afterClear_draws (s : State) : (afterClear s).draws = s.draws + 1 := rfl

@[simp] theorem afterEdge_draws (pins : Pins) (s : State) : (afterEdge pins s).draws = s.draws + 1 := rfl

/-- FRAME takes ten edges. -/
theorem exec_frame_draws (f : Frame) (s : State) :
    ∃ t, exec (.frame f) s = .next t ∧ t.draws = s.draws + 10 :=
  ⟨_, exec_frame f s, offerAll_draws f.bytes s⟩

/-- Every operation but FRAME takes one edge. -/
theorem exec_draws_of_ne_frame {i : Instr} (hi : ∀ f, i ≠ .frame f) (s : State) :
    ∃ t, exec i s = .next t ∧ t.draws = s.draws + 1 := by
  cases i with
  | idle x => exact ⟨_, exec_idle x s, s.edge_draws Pins.idle⟩
  | processByte b x => exact ⟨_, exec_processByte b x s, afterByte_draws b s⟩
  | serialize code param => exact ⟨_, exec_serialize code param s, afterSerialize_draws code param s⟩
  | clear x => exact ⟨_, exec_clear x s, afterClear_draws s⟩
  | frame f => exact absurd rfl (hi f)

/-- Settles O58: each edge moves the counter on by one, and FRAME takes ten of them. -/
theorem operationsAndEdgesAdvanceDrawCounter : Obligations.OperationsAndEdgesAdvanceDrawCounter := by
  refine ⟨fun i s => ?operation, fun pins rest s hp => ⟨_, step_of_pending_edge hp, afterEdge_draws pins _⟩⟩
  by_cases hframe : ∃ f, i = .frame f
  · obtain ⟨f, rfl⟩ := hframe
    obtain ⟨t, ht, hdraws⟩ := exec_frame_draws f s
    exact ⟨t, ht, fun _ => hdraws, fun hne => absurd rfl (hne f)⟩
  · obtain ⟨t, ht, hdraws⟩ := exec_draws_of_ne_frame (not_exists.mp hframe) s
    exact ⟨t, ht, fun h => absurd h hframe, fun _ => hdraws⟩

end Sys2Proof.Machine
end
